-- ==== Sys2Proof/Word.lean ====
section
/-! DEFINITION. The word types of the engine and the small record types its encoding is spoken of in
(00_scope R7, R8, R12; 30_encoding R70, R71, R73). -/

namespace Sys2Proof

/-- An `i32`: the 32-bit pattern of a register (R8, R20). `BitVec.toInt` is its signed value. -/
abbrev Word := BitVec 32

/-- A `u8`: exit codes, literals, host-call function ids (R8). -/
abbrev Byte := BitVec 8

/-- The pattern `bits16(raw)` of a RawInstruction, a signed 16-bit integer (R8, R70). -/
abbrev RawInstr := BitVec 16

/-- A 4-bit register field. Values 13 to 15 are encodable; using one faults (R26, R78). -/
abbrev RegField := BitVec 4

/-- "an opaque callback identity the host chose" (R36). Its type is the model's choice (log 5). -/
abbrev CallbackId := Nat

/-- The decoded instruction of R73: exactly 4, 4 and 8 bits wide. -/
structure DecodedInstruction where
  opcode : BitVec 4
  dest   : BitVec 4
  value  : BitVec 8
deriving DecidableEq, Repr

/-- The two addressing modes that Jump's `value[0]` selects (R162). -/
inductive JumpMode where
  | relative
  | absolute
deriving DecidableEq, Repr

end Sys2Proof
end

