-- ==== Sys2Proof/Config.lean ====
section
/-! DEFINITION. The implementation parameters of 00_scope R6 that the engine reads, and the values State.reset
is built with. The parameters are fields of State (10_state R33: fixed at construction), so that every statement
about states holds for every value of them; this file only names what a construction is given. -/

namespace Sys2Proof

/-- The configuration state of R33, fixed when the engine is constructed. -/
structure Params where
  /-- `HC_CAPACITY`, the number of host-call slots, 1 to 4096 (R6). -/
  hcCapacity     : Nat
  /-- `STRICT_HOSTCALL` (R6): a lookup miss is a fault. -/
  strictHostcall : Bool
  /-- `TRACE_ENABLE` (R6): each executed instruction emits a trace event. -/
  traceEnable    : Bool
deriving DecidableEq, Repr

namespace Config

/-- `HC_CAPACITY` less one, of the engine that `State.reset` is: OPEN in the spec (R6, 92 D15), so it has no
value here; its type says the bounds 1 to 4096. DESIGN CHOICE in form (log 1), safe: nothing proves a value of it. -/
opaque hcCapacityPred : Fin 4096

/-- `HC_CAPACITY` of the engine that `State.reset` is, 1 to 4096 (R6). -/
def hcCapacity : Nat := hcCapacityPred.val + 1

/-- The parameters `State.reset` is constructed with: the capacity open, the two flags at the default that R6
gives them. -/
def resetParams : Params := ⟨hcCapacity, false, false⟩

end Config

end Sys2Proof
end

