-- ==== Sys2Proof/Syntax.lean ====
section
/-! DEFINITION. The instructions of the engine: one constructor for each row of spec/opcode_table.json
(30_encoding R72, R76). Fields that an instruction ignores (R80) are kept, because the codec is a bijection on
words (R75) and the trace hook shows the whole decoded instruction (R218). -/

namespace Sys2Proof

inductive Instr where
  /-- `halt`, form X8, opcode 0 (R103). `dest` is ignored. -/
  | halt (dest : RegField) (value : Byte)
  /-- `set`, form L8, opcode 1 (R120). -/
  | set (dest : RegField) (value : Byte)
  /-- `cpy`, form RR, opcode 2 (R121). `argB` is ignored. -/
  | cpy (dest argA argB : RegField)
  /-- `add`, form RRR, opcode 3 (R131). -/
  | add (dest argA argB : RegField)
  /-- `sub`, form RRR, opcode 4 (R132). -/
  | sub (dest argA argB : RegField)
  /-- `mul`, form RRR, opcode 5 (R133). -/
  | mul (dest argA argB : RegField)
  /-- `div`, form RRR, opcode 6 (R134). -/
  | div (dest argA argB : RegField)
  /-- `inv`, form R, opcode 7 (R135). `value` is ignored. -/
  | inv (dest : RegField) (value : Byte)
  /-- `eql`, form RRR, opcode 8 (R151). -/
  | eql (dest argA argB : RegField)
  /-- `neq`, form RRR, opcode 9 (R152). -/
  | neq (dest argA argB : RegField)
  /-- `gre`, form RRR, opcode 10 (R153). -/
  | gre (dest argA argB : RegField)
  /-- `les`, form RRR, opcode 11 (R154). -/
  | les (dest argA argB : RegField)
  /-- `jmp`, form J, opcode 12 (R161, R162). `unused` is `value[7:1]`, ignored; `mode` is `value[0]`. -/
  | jmp (dest : RegField) (unused : BitVec 7) (mode : JumpMode)
  /-- `hcl`, form H, opcode 13 (R181): the group id and the function id. -/
  | hcl (groupId : BitVec 4) (functionId : BitVec 8)
  /-- Opcode 14, unassigned, form X8: behaves as Halt (R104). -/
  | unassigned14 (dest : RegField) (value : Byte)
  /-- Opcode 15, unassigned, form X8: behaves as Halt (R104). -/
  | unassigned15 (dest : RegField) (value : Byte)
deriving DecidableEq, Repr

end Sys2Proof
end

