-- ==== Sys2Proof/WellFormed.lean ====
section
/-! DEFINITION. The checks on what can be built. The fields of an `Instr` have exactly the widths of the hardware
(R73, 92 D29), so every term of the type is well formed and every word decodes (R81): the one check there is about
instructions is on software callers that hold wider integers (93 I15: refuse). The other check bounds the parameters. -/

namespace Sys2Proof

/-- The range of the codec's inputs, "`destReg ∈ [0,15]`, `value ∈ [0,255]`, `opcode ∈ [0,15]`" (R75). -/
def fieldsFit (opcode dest value : Nat) : Bool :=
  decide (opcode < 16) && decide (dest < 16) && decide (value < 256)

/-- A decoded instruction from wider integers: refused when one does not fit its field (93 I15, R73). -/
def DecodedInstruction.ofNats? (opcode dest value : Nat) : Option DecodedInstruction :=
  if fieldsFit opcode dest value then
    some ⟨BitVec.ofNat 4 opcode, BitVec.ofNat 4 dest, BitVec.ofNat 8 value⟩
  else none

/-- Every instruction term is well formed: its fields cannot be out of range (R73), and no operand value is
illegal as an instruction (R78, R81). -/
def Instr.wellFormed : Instr → Bool
  | .halt _ _ | .set _ _ | .cpy _ _ _ | .add _ _ _ | .sub _ _ _ | .mul _ _ _ | .div _ _ _ | .inv _ _
  | .eql _ _ _ | .neq _ _ _ | .gre _ _ _ | .les _ _ _ | .jmp _ _ _ | .hcl _ _
  | .unassigned14 _ _ | .unassigned15 _ _ => true

/-- `1 <= HC_CAPACITY <= 4096` (R6). -/
def Params.wf (p : Params) : Bool := decide (1 ≤ p.hcCapacity) && decide (p.hcCapacity ≤ 4096)

end Sys2Proof
end

