-- ==== Sys2Proof/Decode.lean ====
section
/-! DEFINITION. The instruction codec (30_encoding R71 to R76): `unpack` and `pack` between words and fields,
the choice of the instruction by the opcode, and the opcode table as data. Decoding is total and refuses nothing
(R74, R81). -/

namespace Sys2Proof

/-- `unpack` (R74): the fields taken by bit position from the word's pattern. -/
def unpack (w : RawInstr) : DecodedInstruction :=
  ⟨w.extractLsb' 12 4, w.extractLsb' 8 4, w.extractLsb' 0 8⟩

/-- `pack` (R75): opcode, dest, value, from the high bits down. -/
def pack (d : DecodedInstruction) : RawInstr := d.opcode ++ d.dest ++ d.value

/-- The view `argA = value[7:4]` (R71, R73). -/
def DecodedInstruction.argA (d : DecodedInstruction) : RegField := d.value.extractLsb' 4 4

/-- The view `argB = value[3:0]` (R71, R73). -/
def DecodedInstruction.argB (d : DecodedInstruction) : RegField := d.value.extractLsb' 0 4

/-- `packRRR`'s value field: `b | (a << 4)` (R75). -/
def pairValue (a b : RegField) : Byte := a ++ b

/-- Jump's mode: `value[0] = 1` is absolute, 0 is relative (R162). -/
def modeOfBit (b : Bool) : JumpMode := if b then .absolute else .relative

/-- The bit that selects a mode (R162). -/
def bitOfMode : JumpMode → BitVec 1
  | .relative => 0#1
  | .absolute => 1#1

/-- The instruction that the dispatcher selects for decoded fields (R76, R83, R102). -/
def select (d : DecodedInstruction) : Instr :=
  match d.opcode.toNat with
  | 0 => .halt d.dest d.value
  | 1 => .set d.dest d.value
  | 2 => .cpy d.dest d.argA d.argB
  | 3 => .add d.dest d.argA d.argB
  | 4 => .sub d.dest d.argA d.argB
  | 5 => .mul d.dest d.argA d.argB
  | 6 => .div d.dest d.argA d.argB
  | 7 => .inv d.dest d.value
  | 8 => .eql d.dest d.argA d.argB
  | 9 => .neq d.dest d.argA d.argB
  | 10 => .gre d.dest d.argA d.argB
  | 11 => .les d.dest d.argA d.argB
  | 12 => .jmp d.dest (d.value.extractLsb' 1 7) (modeOfBit (d.value.getLsbD 0))
  | 13 => .hcl d.dest d.value
  | 14 => .unassigned14 d.dest d.value
  | _ => .unassigned15 d.dest d.value

/-- Decoding a word: total, no error (R74, R81). -/
def decode (w : RawInstr) : Instr := select (unpack w)

/-- The fields of an instruction, by the forms of R72 and the opcodes of R76. -/
def Instr.fields : Instr → DecodedInstruction
  | .halt d v => ⟨0, d, v⟩
  | .set d v => ⟨1, d, v⟩
  | .cpy d a b => ⟨2, d, pairValue a b⟩
  | .add d a b => ⟨3, d, pairValue a b⟩
  | .sub d a b => ⟨4, d, pairValue a b⟩
  | .mul d a b => ⟨5, d, pairValue a b⟩
  | .div d a b => ⟨6, d, pairValue a b⟩
  | .inv d v => ⟨7, d, v⟩
  | .eql d a b => ⟨8, d, pairValue a b⟩
  | .neq d a b => ⟨9, d, pairValue a b⟩
  | .gre d a b => ⟨10, d, pairValue a b⟩
  | .les d a b => ⟨11, d, pairValue a b⟩
  | .jmp d u m => ⟨12, d, u ++ bitOfMode m⟩
  | .hcl g f => ⟨13, g, f⟩
  | .unassigned14 d v => ⟨14, d, v⟩
  | .unassigned15 d v => ⟨15, d, v⟩

/-- The word of an instruction. -/
def encode (i : Instr) : RawInstr := pack i.fields

/-- The mnemonic of the row of spec/opcode_table.json that an instruction is. -/
def Instr.mnemonic : Instr → String
  | .halt _ _ => "halt"
  | .set _ _ => "set"
  | .cpy _ _ _ => "cpy"
  | .add _ _ _ => "add"
  | .sub _ _ _ => "sub"
  | .mul _ _ _ => "mul"
  | .div _ _ _ => "div"
  | .inv _ _ => "inv"
  | .eql _ _ _ => "eql"
  | .neq _ _ _ => "neq"
  | .gre _ _ _ => "gre"
  | .les _ _ _ => "les"
  | .jmp _ _ _ => "jmp"
  | .hcl _ _ => "hcl"
  | .unassigned14 _ _ => "unassigned_14"
  | .unassigned15 _ _ => "unassigned_15"

/-- A row of spec/opcode_table.json: a word is of the row when its masked bits equal the match (R83). -/
structure OpcodeRow where
  mnemonic  : String
  bits      : RawInstr
  mask      : RawInstr
deriving DecidableEq, Repr

/-- Does the word belong to the row? -/
def OpcodeRow.hits (r : OpcodeRow) (w : RawInstr) : Bool := w &&& r.mask == r.bits

/-- spec/opcode_table.json, row by row, in its order. -/
def opcodeTable : List OpcodeRow :=
  [⟨"halt", 0x0000, 0xF000⟩, ⟨"set", 0x1000, 0xF000⟩, ⟨"cpy", 0x2000, 0xF000⟩, ⟨"add", 0x3000, 0xF000⟩]
  ++ [⟨"sub", 0x4000, 0xF000⟩, ⟨"mul", 0x5000, 0xF000⟩, ⟨"div", 0x6000, 0xF000⟩, ⟨"inv", 0x7000, 0xF000⟩]
  ++ [⟨"eql", 0x8000, 0xF000⟩, ⟨"neq", 0x9000, 0xF000⟩, ⟨"gre", 0xA000, 0xF000⟩, ⟨"les", 0xB000, 0xF000⟩]
  ++ [⟨"jmp", 0xC000, 0xF000⟩, ⟨"hcl", 0xD000, 0xF000⟩, ⟨"unassigned_14", 0xE000, 0xF000⟩,
      ⟨"unassigned_15", 0xF000, 0xF000⟩]

/-- The instruction the decoder reads from an instruction whose bits are `w`, as the opcode table numbers them.
Every instruction is one 16-bit word (R70, R82); nothing longer exists, so more than 16 bits is no instruction. -/
def decodeTableWord (nbits w : Nat) : Option Instr :=
  if nbits ≤ 16 then some (decode (BitVec.ofNat 16 (w % 2 ^ nbits))) else none

end Sys2Proof
end

