-- ==== Sys2Proof/Machine/State.lean ====
section
/-! DEFINITION. The state of the engine (10_state R20 to R39) and of its ports (00_scope R5), as plain data, and the
state after construction (70_reset R230, R231). -/

namespace Sys2Proof.Machine

/-- The file of 13 registers; slot 12 is `Local` (R20, R21). -/
abbrev RegFile := Vector Word 13

/-- The bound byte-code of R35. `bcCount` is the number of words. The machine's only memory: word-indexed, and
read-only to the engine (R50, R51, R62). -/
structure ByteCode where
  /-- `bcValid`: "the instruction pointer is non-null" (R35). -/
  valid : Bool
  /-- `bcWord[0 .. bcCount-1]`, in program order. -/
  words : List RawInstr
deriving DecidableEq, Repr

/-- `bcCount` (R35). -/
def ByteCode.count (bc : ByteCode) : Nat := bc.words.length

/-- `bcCount` is a `u32`: at most 2^32 - 1 words (R51, 92 D23). -/
def Memory.wf (bc : ByteCode) : Bool := decide (bc.count < 2 ^ 32)

/-- The three answers of registration on the port HCREG (R186). -/
inductive RegisterResult where
  | ok
  | overwritten
  | outOfRange
deriving DecidableEq, Repr

/-- What the host asks for on the ports PROG, HCREG and CTRL (R5). Ids are those a host may pass, in range or not (R186). -/
inductive HostCmd where
  /-- PROG: bind a byte-code (R233). -/
  | bind (bc : ByteCode)
  /-- HCREG: `register(cb, groupId, functionId)` (R186). -/
  | register (cb : CallbackId) (groupId functionId : Nat)
  /-- CTRL: `run()` (R100). -/
  | run
deriving DecidableEq, Repr

/-- PROG carries a `bcCount : u32` (R5): a command that binds more words does not exist. -/
def HostCmd.wf : HostCmd → Bool
  | .bind bc => Memory.wf bc
  | .register _ _ _ => true
  | .run => true

/-- What the engine answers on the ports HCREG and CTRL (R5). -/
inductive HostReply where
  /-- the result of a registration (R186) -/
  | registered (r : RegisterResult)
  /-- `run()` returned this exit code (R100, R106) -/
  | exited (code : Byte)
deriving DecidableEq, Repr

/-- The HCALL request, less the registers, which are the engine's while it waits (R183). -/
structure HcallRequest where
  callback   : CallbackId
  groupId    : BitVec 4
  functionId : BitVec 8
deriving DecidableEq, Repr

/-- The HCALL response `(regs', haltReq)`: a value the host chooses, under no law (R183, R184). -/
structure HcallAnswer where
  regs    : RegFile
  haltReq : Bool
deriving DecidableEq, Repr

/-- One completed HCALL exchange: the request with the registers it carried, and the answer (R106, R183). -/
structure HcallExchange where
  request : HcallRequest
  regsIn  : RegFile
  answer  : HcallAnswer
deriving DecidableEq, Repr

/-- One TRACE event: the decoded instruction and the registers it left (R218). -/
structure TraceEvent where
  instr : DecodedInstruction
  regs  : RegFile
deriving DecidableEq, Repr

/-- The machine. The first seven fields are the state of R39 with the configuration of R33 and the binding of R35; the others hold
the transactions of the ports of R5 (log 2, log 3). -/
structure State where
  /-- the register file `x[0..12]` (R20) -/
  x         : RegFile
  /-- `pos`, the word index of the next instruction (R29) -/
  pos       : BitVec 32
  /-- `halted` (R32) -/
  halted    : Bool
  /-- `exitCode` (R32) -/
  exitCode  : Byte
  /-- the occupied slots of the host-call table, ids strictly rising (R36, log 5) -/
  slots     : List (Nat × CallbackId)
  /-- the configuration, fixed at construction (R33) -/
  params    : Params
  /-- the bound byte-code (R35) -/
  byteCode  : ByteCode
  /-- the HCALL request the engine waits on (R183, log 3) -/
  pending   : Option HcallRequest
  /-- host requests on PROG, HCREG and CTRL not yet taken, oldest first (R5, log 2) -/
  commands  : List HostCmd
  /-- host responses on HCALL not yet taken, oldest first: a free input (R183, log 3) -/
  answers   : List HcallAnswer
  /-- responses given on HCREG and CTRL, oldest first (R5, log 2) -/
  replies   : List HostReply
  /-- completed HCALL exchanges, oldest first (R106, log 3) -/
  exchanges : List HcallExchange
  /-- TRACE events emitted, oldest first (R218, log 2) -/
  trace     : List TraceEvent
deriving DecidableEq, Repr

/-- Reasons for the machine to stop without a next state. There are none: every fault of the spec records an exit
code and sets `halted` (R202, R204, R208), which is a next state. Safe: no behaviour is cut off. -/
inductive Fault where
deriving DecidableEq, Repr

/-- Refusals. -/
inductive Refusal where
  /-- raised by an arm of `exec` whose instruction has no meaning yet (none in this model); safe: the run is cut off. -/
  | notModelled (mnemonic : String)
deriving DecidableEq, Repr

/-- Every register 0 (R231, R232). -/
def RegFile.zero : RegFile := Vector.replicate 13 0

/-- Construction (R230, R231): bound to a byte-code, with its parameters; halted, everything else 0 or empty. -/
def State.construct (p : Params) (bc : ByteCode) : State :=
  { x := RegFile.zero, pos := 0, halted := true, exitCode := 0, slots := [], params := p, byteCode := bc,
    pending := none, commands := [], answers := [], replies := [], exchanges := [], trace := [] }

/-- The byte-code of `State.reset`: none is bound (DESIGN CHOICE, log 4). -/
def ByteCode.unbound : ByteCode := ⟨false, []⟩

/-- The machine right after construction, with the parameters of `Config` and no byte-code (R231, log 1, log 4). -/
def State.reset : State := State.construct Config.resetParams ByteCode.unbound

end Sys2Proof.Machine
end

