-- ==== Sys2Proof/Machine/Ops.lean ====
section
/-! DEFINITION. The named operations on registers, the instruction store and the status: the checked accesses `chk`,
`rd`, `wr` (10_state R22 to R24), `Fetch` (20_memory R52), and the one routine through which every halt and every
fault goes (60_exceptions R203, R204) with its only way back, run start (70_reset R232, 60_exceptions R209). -/

namespace Sys2Proof.Machine

/-- `ExitCodeHaltRequested` (R200). -/
def codeHaltRequested : Byte := 0xFB
/-- `ExitCodeDivideByZero` (R200). -/
def codeDivideByZero : Byte := 0xFC
/-- `ExitCodeJumpOutOfBounds` (R200). -/
def codeJumpOutOfBounds : Byte := 0xFD
/-- `ExitCodeRegisterFault` (R200). -/
def codeRegisterFault : Byte := 0xFE
/-- `ExitCodeInvalidHostCall` (R200). -/
def codeInvalidHostCall : Byte := 0xFF

/-- `wrap32` (R8): the exact integer reduced modulo 2^32, as an `i32`. -/
def wrap32 (n : Int) : Word := BitVec.ofInt 32 n

/-- The slot `x[i]`, unchecked (R9). -/
def State.reg (s : State) (i : Fin 13) : Word := s.x[i.val]

/-- `x[i] <- v`, unchecked (R9). -/
def State.setReg (s : State) (i : Fin 13) (v : Word) : State := { s with x := s.x.set i.val v }

/-- `halt_with(code)` (R203): the first code recorded in a run stays. -/
def haltWith (code : Byte) (s : State) : State :=
  if s.halted then s else { s with exitCode := code, halted := true }

/-- `raise Fault(code)` (R204): the engine's whole exception entry. Only the exit code is saved; there is no vector,
no mode and no stack (R208). It does not end the instruction that raises it. -/
def raiseFault (code : Byte) (s : State) : State := haltWith code s

/-- Run start (R232): the only way out of Halted, and the only "return" after a fault (R209). -/
def runStart (s : State) : State :=
  { s with halted := false, exitCode := 0, x := RegFile.zero, pos := 0 }

/-- `Local`, the fallback register (R21, R22). -/
def localReg : Fin 13 := 12

/-- `chk(i)` (R22): a legal index stands for itself; an illegal one raises 0xFE and stands for register 12. -/
def chk (i : RegField) (s : State) : Fin 13 × State :=
  if h : i.toNat < 13 then (⟨i.toNat, h⟩, s) else (localReg, raiseFault codeRegisterFault s)

/-- `rd(i) = x[chk(i)]` (R23), with the state after the check. -/
def rd (i : RegField) (s : State) : Word × State := ((chk i s).2.reg (chk i s).1, (chk i s).2)

/-- `wr(i, v)`: `x[chk(i)] <- v` (R24). -/
def wr (i : RegField) (v : Word) (s : State) : State := (chk i s).2.setReg (chk i s).1 v

/-- `Fetch(p)` (R52): the word at an index of a valid byte-code, the synthetic halt 0x0000 elsewhere. -/
def fetch (bc : ByteCode) (p : BitVec 32) : RawInstr :=
  if bc.valid then bc.words.getD p.toNat 0x0000 else 0x0000

/-- `pos <- (pos + 1) mod 2^32`, at every fetch (R30, R101). -/
def advance (s : State) : State := { s with pos := s.pos + 1 }

/-- The words with `w` at index `p`; words before it that are missing are filled with zero words. -/
def storeWordAt : List RawInstr → Nat → RawInstr → List RawInstr
  | [], 0, w => [w]
  | [], p + 1, w => 0x0000 :: storeWordAt [] p w
  | _ :: rest, 0, w => w :: rest
  | v :: rest, p + 1, w => v :: storeWordAt rest p w

end Sys2Proof.Machine
end

