-- ==== Sys2Proof/Machine/Operands.lean ====
section
/-! DEFINITION. The operand forms that go through `chk` (30_encoding R72; 10_state R27): how each form reads its
sources and writes its result, in the access order of 41_move R122 and 42_arith R136. Forms X8 and H access no
register; form J reads its offset as `rd(dest)`. -/

namespace Sys2Proof.Machine

/-- Form L8: the literal is zero-extended, never sign-extended (R77), and written to `dest`. -/
def operandL8 (dest : RegField) (value : Byte) (s : State) : State := wr dest (value.zeroExtend 32) s

/-- Form RR: `argA` is read, then `dest` is written (R122). -/
def operandRR (f : Word → Word) (dest argA : RegField) (s : State) : State :=
  wr dest (f (rd argA s).1) (rd argA s).2

/-- Form R: `dest` is read, then written. -/
def operandR (f : Word → Word) (dest : RegField) (s : State) : State :=
  wr dest (f (rd dest s).1) (rd dest s).2

/-- Form RRR: `argA`, then `argB`, then `dest` (R136). -/
def operandRRR (f : Word → Word → Word) (dest argA argB : RegField) (s : State) : State :=
  wr dest (f (rd argA s).1 (rd argB (rd argA s).2).1) (rd argB (rd argA s).2).2

end Sys2Proof.Machine
end

