-- ==== Sys2Proof/Machine/Flags.lean ====
section
/-! DEFINITION. The engine has no flags, condition codes or predicates (10_state R31); no instruction writes one.
What a machine with flags computes for a condition, this one writes to a register as the integer 1 or 0
(43_compare R150). Those results are defined here. -/

namespace Sys2Proof.Machine

/-- `b2i` (R8), as the `i32` that a comparison writes (R150). -/
def b2i (b : Bool) : Word := if b then 1 else 0

/-- Eql (R151). -/
def condEql (a b : Word) : Word := b2i (decide (a = b))

/-- Neq (R152). -/
def condNeq (a b : Word) : Word := b2i (decide (a ≠ b))

/-- Grt: signed and strict, the first operand on the left (R150, R153). -/
def condGrt (a b : Word) : Word := b2i (decide (a.toInt > b.toInt))

/-- Let: signed and strict, the first operand on the left (R150, R154). -/
def condLet (a b : Word) : Word := b2i (decide (a.toInt < b.toInt))

end Sys2Proof.Machine
end

