-- ==== Sys2Proof/Machine/Arith.lean ====
section
/-! DEFINITION. The family of 42_arith: exact integer arithmetic on the signed operands, narrowed by `wrap32` (R130). -/

namespace Sys2Proof.Machine

/-- Add (R131). -/
def execAdd (dest argA argB : RegField) (s : State) : Host.Outcome State Fault Refusal :=
  .next (operandRRR (fun a b => wrap32 (a.toInt + b.toInt)) dest argA argB s)

/-- Sub (R132): `argA - argB`. -/
def execSub (dest argA argB : RegField) (s : State) : Host.Outcome State Fault Refusal :=
  .next (operandRRR (fun a b => wrap32 (a.toInt - b.toInt)) dest argA argB s)

/-- Mul (R133): the low 32 bits of the exact product. -/
def execMul (dest argA argB : RegField) (s : State) : Host.Outcome State Fault Refusal :=
  .next (operandRRR (fun a b => wrap32 (a.toInt * b.toInt)) dest argA argB s)

/-- Div (R134): the divisor is read first. When it is 0 the fault 0xFC is raised and neither `argA` nor `dest` is
accessed. Otherwise the quotient is truncated toward zero (R137) and wrapped (`-2^31 / -1 = -2^31`). -/
def execDiv (dest argA argB : RegField) (s : State) : Host.Outcome State Fault Refusal :=
  if (rd argB s).1 = 0 then .next (raiseFault codeDivideByZero (rd argB s).2)
  else .next (operandRR (fun a => wrap32 (a.toInt.tdiv (rd argB s).1.toInt)) dest argA (rd argB s).2)

/-- Inv (R135): arithmetic negation in place; `value` is ignored. -/
def execInv (dest : RegField) (_value : Byte) (s : State) : Host.Outcome State Fault Refusal :=
  .next (operandR (fun v => wrap32 (-v.toInt)) dest s)

end Sys2Proof.Machine
end

