-- ==== Sys2Proof/Machine/Compare.lean ====
section
/-! DEFINITION. The family of 43_compare: 1 or 0 to a register (R150). -/

namespace Sys2Proof.Machine

/-- Eql (R151). -/
def execEql (dest argA argB : RegField) (s : State) : Host.Outcome State Fault Refusal :=
  .next (operandRRR condEql dest argA argB s)

/-- Neq (R152). -/
def execNeq (dest argA argB : RegField) (s : State) : Host.Outcome State Fault Refusal :=
  .next (operandRRR condNeq dest argA argB s)

/-- Grt, mnemonic `gre` (R153). -/
def execGre (dest argA argB : RegField) (s : State) : Host.Outcome State Fault Refusal :=
  .next (operandRRR condGrt dest argA argB s)

/-- Let, mnemonic `les` (R154). -/
def execLes (dest argA argB : RegField) (s : State) : Host.Outcome State Fault Refusal :=
  .next (operandRRR condLet dest argA argB s)

end Sys2Proof.Machine
end

