-- ==== Sys2Proof/Machine/Halt.lean ====
section
/-! DEFINITION. The family of 40_dispatch: Halt (R103) and the two unassigned opcodes (R104). Each ignores `dest` and
reads no register. -/

namespace Sys2Proof.Machine

/-- Halt (R103): any value is accepted as the exit code, reserved or not. -/
def execHalt (_dest : RegField) (value : Byte) (s : State) : Host.Outcome State Fault Refusal :=
  .next (haltWith value s)

/-- Opcode 14 (R104). -/
def execUnassigned14 (_dest : RegField) (value : Byte) (s : State) : Host.Outcome State Fault Refusal :=
  .next (haltWith value s)

/-- Opcode 15 (R104). -/
def execUnassigned15 (_dest : RegField) (value : Byte) (s : State) : Host.Outcome State Fault Refusal :=
  .next (haltWith value s)

end Sys2Proof.Machine
end

