-- ==== Sys2Proof/Machine/HostCall.lean ====
section
/-! DEFINITION. The family of 45_hostcall: the host-call table, the HCALL exchange and CallHost. -/

namespace Sys2Proof.Machine

/-- The packed id `(groupId << 8) | functionId` (R180). -/
def packedId (groupId functionId : Nat) : Nat := groupId * 256 + functionId

/-- What the slot `id` holds: a callback, or nothing for `Empty` (R36). -/
def slotAt : List (Nat × CallbackId) → Nat → Option CallbackId
  | [], _ => none
  | (k, c) :: rest, id => if k = id then some c else slotAt rest id

/-- `slot[id] <- Cb(c)`, keeping the ids strictly rising. -/
def setSlot : List (Nat × CallbackId) → Nat → CallbackId → List (Nat × CallbackId)
  | [], id, c => [(id, c)]
  | (k, c') :: rest, id, c =>
    if id < k then (id, c) :: (k, c') :: rest
    else if id = k then (id, c) :: rest
    else (k, c') :: setSlot rest id c

/-- The packed id has a slot (R185, R186). -/
def idInRange (groupId functionId cap : Nat) : Bool :=
  decide (groupId ≤ 15) && decide (functionId ≤ 255) && decide (packedId groupId functionId < cap)

/-- `lookup(g, f)` (R185). The slot is read before the range is tested; an empty slot is `none` either way. -/
def lookup (groupId functionId : Nat) (s : State) : Option CallbackId :=
  match slotAt s.slots (packedId groupId functionId) with
  | none => none
  | some c => if idInRange groupId functionId s.params.hcCapacity then some c else none

/-- `register(c, g, f)` (R186), with the table after it. -/
def registerCallback (c : CallbackId) (groupId functionId : Nat) (s : State) : RegisterResult × State :=
  if idInRange groupId functionId s.params.hcCapacity then
    match slotAt s.slots (packedId groupId functionId) with
    | none => (.ok, { s with slots := setSlot s.slots (packedId groupId functionId) c })
    | some _ => (.overwritten, { s with slots := setSlot s.slots (packedId groupId functionId) c })
  else (.outOfRange, s)

/-- The host's answer arrives (R183, R184): the new registers are installed, the exchange is complete, and then a
halt request halts the run with 0xFB. -/
def installAnswer (q : HcallRequest) (a : HcallAnswer) (rest : List HcallAnswer) (s : State) : State :=
  let t := { s with x := a.regs, pending := none, answers := rest, exchanges := s.exchanges ++ [⟨q, s.x, a⟩] }
  if a.haltReq then haltWith codeHaltRequested t else t

/-- The HCALL exchange (R183): the request is sent; if the host has answered, the answer is installed, and if not,
the engine waits with the request pending (R107, log 3). -/
def hcall (q : HcallRequest) (s : State) : State :=
  match s.answers with
  | [] => { s with pending := some q }
  | a :: rest => installAnswer q a rest s

/-- CallHost (R181). No field goes through `chk`. A miss is 0xFF when strict and nothing otherwise. -/
def execHcl (groupId : BitVec 4) (functionId : BitVec 8) (s : State) : Host.Outcome State Fault Refusal :=
  match lookup groupId.toNat functionId.toNat s with
  | some c => .next (hcall ⟨c, groupId, functionId⟩ s)
  | none => if s.params.strictHostcall then .next (raiseFault codeInvalidHostCall s) else .next s

end Sys2Proof.Machine
end

