-- ==== Sys2Proof/Machine/Jump.lean ====
section
/-! DEFINITION. The family of 44_jump: the one control transfer. `exec` runs after the fetch has advanced `pos`, so
for the jump at index j the state's `pos` is j + 1 (10_state R29). -/

namespace Sys2Proof.Machine

/-- The multiplier `isRelative` of the source's formula (R160). -/
def isRelative : JumpMode → Int
  | .relative => 1
  | .absolute => 0

/-- The target in exact integers (R160, R161): `pos * r + off - r`. -/
def jumpTarget (mode : JumpMode) (pos : BitVec 32) (off : Word) : Int :=
  (pos.toNat : Int) * isRelative mode + off.toInt - isRelative mode

/-- The transfer (R161): accepted iff `0 <= t < bcCount`; otherwise 0xFD, and `pos` stays. -/
def jumpTo (t : Int) (s : State) : State :=
  if 0 ≤ t ∧ t < (s.byteCode.count : Int) then { s with pos := BitVec.ofInt 32 t }
  else raiseFault codeJumpOutOfBounds s

/-- Jump (R161): the offset is `rd(dest)`; a relative jump by 0 is a no-op. -/
def execJmp (dest : RegField) (_unused : BitVec 7) (mode : JumpMode) (s : State) : Host.Outcome State Fault Refusal :=
  if mode = .relative ∧ (rd dest s).1 = 0 then .next (rd dest s).2
  else .next (jumpTo (jumpTarget mode (rd dest s).2.pos (rd dest s).1) (rd dest s).2)

end Sys2Proof.Machine
end

