-- ==== Sys2Proof/Machine/Move.lean ====
section
/-! DEFINITION. The family of 41_move: Set and Copy. -/

namespace Sys2Proof.Machine

/-- Set (R120). -/
def execSet (dest : RegField) (value : Byte) (s : State) : Host.Outcome State Fault Refusal :=
  .next (operandL8 dest value s)

/-- Copy (R121): `argB` is ignored and not checked. -/
def execCpy (dest argA _argB : RegField) (s : State) : Host.Outcome State Fault Refusal :=
  .next (operandRR id dest argA s)

end Sys2Proof.Machine
end

