-- ==== Sys2Proof/Machine/Dispatch.lean ====
section
/-! DEFINITION. `execute(d)` (40_dispatch R102): one arm per instruction. It runs after the fetch has advanced `pos`. -/

namespace Sys2Proof.Machine

def exec (i : Instr) (s : State) : Host.Outcome State Fault Refusal :=
  match i with
  | .halt dest value => Sys2Proof.Machine.execHalt dest value s
  | .set dest value => Sys2Proof.Machine.execSet dest value s
  | .cpy dest argA argB => Sys2Proof.Machine.execCpy dest argA argB s
  | .add dest argA argB => Sys2Proof.Machine.execAdd dest argA argB s
  | .sub dest argA argB => Sys2Proof.Machine.execSub dest argA argB s
  | .mul dest argA argB => Sys2Proof.Machine.execMul dest argA argB s
  | .div dest argA argB => Sys2Proof.Machine.execDiv dest argA argB s
  | .inv dest value => Sys2Proof.Machine.execInv dest value s
  | .eql dest argA argB => Sys2Proof.Machine.execEql dest argA argB s
  | .neq dest argA argB => Sys2Proof.Machine.execNeq dest argA argB s
  | .gre dest argA argB => Sys2Proof.Machine.execGre dest argA argB s
  | .les dest argA argB => Sys2Proof.Machine.execLes dest argA argB s
  | .jmp dest unused mode => Sys2Proof.Machine.execJmp dest unused mode s
  | .hcl groupId functionId => Sys2Proof.Machine.execHcl groupId functionId s
  | .unassigned14 dest value => Sys2Proof.Machine.execUnassigned14 dest value s
  | .unassigned15 dest value => Sys2Proof.Machine.execUnassigned15 dest value s

end Sys2Proof.Machine
end

