-- ==== Sys2Proof/Machine/Cycle.lean ====
section
/-! DEFINITION. What stands around `exec` in a step: the fetch/decode/execute cycle of a running engine (40_dispatch
R101), the wait for a host's answer (45_hostcall R183), the moves of the host on a halted engine (40_dispatch R100,
45_hostcall R186, 70_reset R232, R233), the trace hook (60_exceptions R218) and the end of a run (40_dispatch R106). -/

namespace Sys2Proof.Machine

/-- One TRACE event after the instruction, when enabled (R101, R218). -/
def emitTrace (d : DecodedInstruction) (s : State) : State :=
  if s.params.traceEnable then { s with trace := s.trace ++ [⟨d, s.x⟩] } else s

/-- The loop of R100 tests `halted`: when it is set the run is over and `run()` returns the exit code (R106). -/
def endOfRun (s : State) : State :=
  if s.halted then { s with replies := s.replies ++ [.exited s.exitCode] } else s

/-- The end of an instruction: the trace event, then the test of `halted`. An instruction that still waits for the
host is not at its end (R183, R236). -/
def retire (d : DecodedInstruction) (s : State) : State :=
  if s.pending.isSome then s else endOfRun (emitTrace d s)

/-- `step()` of R101: fetch at `pos`, advance, decode, execute, trace. -/
def runInstr (s : State) : Host.Outcome State Fault Refusal :=
  match exec (decode (fetch s.byteCode s.pos)) (advance s) with
  | .next t => .next (retire (unpack (fetch s.byteCode s.pos)) t)
  | .fault r => .fault r
  | .refused r => .refused r

/-- The decoded CallHost that a request came from (R181): it is what the trace shows when the wait ends. -/
def HcallRequest.decoded (q : HcallRequest) : DecodedInstruction := (Instr.hcl q.groupId q.functionId).fields

/-- A waiting engine (R183): the instruction ends when an answer has come, and nothing happens until then (R107). -/
def resume (q : HcallRequest) (s : State) : State :=
  match s.answers with
  | [] => s
  | a :: rest => retire q.decoded (installAnswer q a rest s)

/-- PROG (R233): binding sets `pos <- 0` and changes nothing else. -/
def bindByteCode (bc : ByteCode) (s : State) : State := { s with byteCode := bc, pos := 0 }

/-- What one host request does to a halted engine, with its reply (R100, R186, R232, R233). -/
def perform (c : HostCmd) (s : State) : State :=
  match c with
  | .bind bc => bindByteCode bc s
  | .register cb g f =>
    let r := registerCallback cb g f s
    { r.2 with replies := r.2.replies ++ [.registered r.1] }
  | .run => runStart s

/-- A halted engine takes the host's next request; without one it stays as it is (R215). -/
def hostMove (s : State) : State :=
  match s.commands with
  | [] => s
  | c :: rest => perform c { s with commands := rest }

/-- The host posts a request on PROG, HCREG or CTRL (log 2). -/
def State.post (s : State) (c : HostCmd) : State := { s with commands := s.commands ++ [c] }

/-- The host posts an answer on HCALL (log 3). -/
def State.answer (s : State) (a : HcallAnswer) : State := { s with answers := s.answers ++ [a] }

/-- What the port REGOBS shows (R5). -/
structure RegObs where
  x        : RegFile
  exitCode : Byte
  halted   : Bool
deriving DecidableEq, Repr

/-- REGOBS is answered only while halted (R5, R106). -/
def State.regObs (s : State) : Option RegObs :=
  if s.halted then some ⟨s.x, s.exitCode, s.halted⟩ else none

end Sys2Proof.Machine
end

