-- ==== Sys2Proof/Machine/Step.lean ====
section
/-! DEFINITION. One step of the machine. -/

namespace Sys2Proof.Machine

/-- A halted engine answers the host (R100, R215); a waiting one finishes its CallHost when the answer is there
(R183); any other executes one instruction (R101). -/
def step (s : State) : Host.Outcome State Fault Refusal :=
  if s.halted then .next (hostMove s)
  else
    match s.pending with
    | some q => .next (resume q s)
    | none => runInstr s

/-- The state in which the very next step fetches and runs the word: running, waiting for nothing, and the word at
index `pos` of a valid byte-code (log 4). Nothing else changes. -/
def State.withFetchWord (s : State) (nbits w : Nat) : State :=
  { s with
    halted := false
    pending := none
    byteCode := ⟨true, storeWordAt s.byteCode.words s.pos.toNat (BitVec.ofNat 16 (w % 2 ^ nbits))⟩ }

end Sys2Proof.Machine
end

