-- ==== Sys2Proof/Machine/Asm.lean ====
section
/-! DEFINITION. The operand map of the assembler's syntax (30_encoding R90): the instruction that one written line
stands for. Lexing, literal ranges and error recovery (R91, R92) are the assembler's, outside the hardware (00_scope
R4); a line here has its operands already in their fields. -/

namespace Sys2Proof.Machine

/-- One line of assembler text, by the mnemonics and operand order of R90. -/
inductive AsmLine where
  | halt (n : Byte)
  | set (rD : RegField) (n : Byte)
  | cpy (rD rA : RegField)
  | add (rD rA rB : RegField)
  | sub (rD rA rB : RegField)
  | mul (rD rA rB : RegField)
  | div (rD rA rB : RegField)
  | eql (rD rA rB : RegField)
  | neq (rD rA rB : RegField)
  | gre (rD rA rB : RegField)
  | les (rD rA rB : RegField)
  | inv (rD : RegField)
  /-- the trailing literal: 0 is relative, anything else absolute -/
  | jmp (rD : RegField) (literal : Int)
  | hcl (group : BitVec 4) (function : Byte)
deriving DecidableEq, Repr

/-- Operands map to fields in written order; unused fields are 0, and the literal of `jmp` is stored as 0 or 1 (R90). -/
def AsmLine.fields : AsmLine → DecodedInstruction
  | .halt n => ⟨0, 0, n⟩
  | .set d n => ⟨1, d, n⟩
  | .cpy d a => ⟨2, d, pairValue a 0⟩
  | .add d a b => ⟨3, d, pairValue a b⟩
  | .sub d a b => ⟨4, d, pairValue a b⟩
  | .mul d a b => ⟨5, d, pairValue a b⟩
  | .div d a b => ⟨6, d, pairValue a b⟩
  | .inv d => ⟨7, d, 0⟩
  | .eql d a b => ⟨8, d, pairValue a b⟩
  | .neq d a b => ⟨9, d, pairValue a b⟩
  | .gre d a b => ⟨10, d, pairValue a b⟩
  | .les d a b => ⟨11, d, pairValue a b⟩
  | .jmp d l => ⟨12, d, if l = 0 then 0 else 1⟩
  | .hcl g f => ⟨13, g, f⟩

/-- The word a line assembles to. -/
def AsmLine.word (l : AsmLine) : RawInstr := pack l.fields

/-- "instructions in source order with no peephole optimization" (R92). -/
def assemble (ls : List AsmLine) : List RawInstr := ls.map AsmLine.word

end Sys2Proof.Machine
end

