-- ==== Sys2Proof/Machine/FileFormat.lean ====
section
/-! DEFINITION. The byte-code file format, a wire contract (20_memory R57): the bytes of a file and what they hold.
The reader and the writer are outside the block (00_scope R4); these functions say what the format is. -/

namespace Sys2Proof.Machine

/-- `FILE_MAGIC` and `FILE_VERSION` (R6), OPEN; and whether a reader takes an older version (93 I9). -/
structure FileParams where
  magic       : List Byte
  version     : Byte
  acceptOlder : Bool
deriving DecidableEq, Repr

/-- The magic tag has 3 or 4 bytes (R6, R57). -/
def FileParams.wf (p : FileParams) : Bool := p.magic.length == 3 || p.magic.length == 4

/-- Why a reader rejects a file. -/
inductive FileError where
  /-- "Readers must reject files whose magic tag does not match" (R57) -/
  | badMagic
  /-- the version exceeds the supported one, or is lower and the reader does not take it (R57) -/
  | badVersion
  /-- the bytes are not a header followed by `count * 2` bytes: DESIGN CHOICE (log 7) -/
  | badLayout
deriving DecidableEq, Repr

/-- A 16-bit word, low byte first (R57). -/
def wordBytes (w : RawInstr) : List Byte := [w.extractLsb' 0 8, w.extractLsb' 8 8]

/-- The 4-byte count, little-endian (R57). -/
def countBytes (n : BitVec 32) : List Byte :=
  [n.extractLsb' 0 8, n.extractLsb' 8 8, n.extractLsb' 16 8, n.extractLsb' 24 8]

/-- The file of a byte-code (R57): magic, version, count, words. -/
def writeFile (p : FileParams) (words : List RawInstr) : List Byte :=
  p.magic ++ [p.version] ++ countBytes (BitVec.ofNat 32 words.length) ++ words.flatMap wordBytes

/-- The words of a file's body, low byte first; an odd byte left over is no word. -/
def bodyWords : List Byte → Option (List RawInstr)
  | [] => some []
  | [_] => none
  | lo :: hi :: rest => (bodyWords rest).map (fun ws => (hi ++ lo) :: ws)

/-- After the magic tag: version, count, body. -/
def readBody (p : FileParams) : List Byte → Except FileError (List RawInstr)
  | v :: b0 :: b1 :: b2 :: b3 :: body =>
    if v.toNat > p.version.toNat then .error .badVersion
    else if v.toNat < p.version.toNat ∧ p.acceptOlder = false then .error .badVersion
    else
      match bodyWords body with
      | none => .error .badLayout
      | some ws => if ws.length = (b3 ++ b2 ++ b1 ++ b0).toNat then .ok ws else .error .badLayout
  | _ => .error .badLayout

/-- Reading a file (R57). -/
def readFile (p : FileParams) (bytes : List Byte) : Except FileError (List RawInstr) :=
  if bytes.take p.magic.length = p.magic then readBody p (bytes.drop p.magic.length) else .error .badMagic

end Sys2Proof.Machine
end

