-- ==== Sys2Proof/Safety.lean ====
section
/-! DEFINITION. The terms claims are stated in: what an instruction leaves alone, what the first recorded fault
leaves, the invariant of the machine, and what a run may depend on. Each is written from the spec's words and not
through the operations of Machine/, so that a claim compares two readings of a rule. -/

namespace Sys2Proof.Machine

/-- The register a field stands for when it is used: itself up to 12, and `Local` above (R22). -/
def effReg (i : RegField) : Fin 13 := if h : i.toNat ≤ 12 then ⟨i.toNat, by omega⟩ else 12

/-- A field whose use faults (R22, R26). -/
def illegalField (i : RegField) : Bool := decide (12 < i.toNat)

/-- `halted` after an instruction that raised the codes, in order (R203, R206). -/
def haltedAfter (s : State) (codes : List Byte) : Bool := s.halted || !codes.isEmpty

/-- `exitCode` after an instruction that raised the codes, in order: the first one of the run stays (R203, R206). -/
def codeAfter (s : State) (codes : List Byte) : Byte :=
  if s.halted then s.exitCode else codes.headD s.exitCode

/-- The register faults that the use of the fields raises, in order (R22, R200). -/
def registerFaults (fields : List RegField) : List Byte := (fields.filter illegalField).map (fun _ => 0xFE)

/-- Everything but the registers, the position and the status is as before: no instruction writes it except
through CallHost's port (R30, R32, R33, R62, R188). -/
def SameSurroundings (s t : State) : Prop :=
  t.slots = s.slots ∧ t.params = s.params ∧ t.byteCode = s.byteCode ∧ t.pending = s.pending ∧
  t.commands = s.commands ∧ t.answers = s.answers ∧ t.replies = s.replies ∧ t.exchanges = s.exchanges ∧
  t.trace = s.trace

/-- Every register but one is as before. -/
def RegsSameExcept (r : Fin 13) (s t : State) : Prop := ∀ j : Fin 13, j ≠ r → t.reg j = s.reg j

/-- `v` is `wrap32(n)`: the one `i32` congruent to `n` modulo 2^32 (R8). -/
def IsWrap32 (v : Word) (n : Int) : Prop := (2 ^ 32 : Int) ∣ v.toInt - n

/-- Integer division truncated toward zero (R8, R137): the quotient of the magnitudes, with the sign of the operands. -/
def truncQuot (a b : Int) : Int := a.sign * b.sign * ((a.natAbs / b.natAbs : Nat) : Int)

/-- A Jump's target for the jump at index `pos - 1` (R160): relative is the jump's index plus the offset, absolute
is the offset. -/
def jumpDest (mode : JumpMode) (pos : BitVec 32) (off : Int) : Int :=
  match mode with
  | .relative => ((pos.toNat : Int) - 1) + off
  | .absolute => off

/-- The result of an instruction that writes one value through one register field and raises register faults
only: the value, the faults, and the frame (R24, R25, R204, R205). -/
def WritesOne (s t : State) (dest : RegField) (v : Word) (used : List RegField) : Prop :=
  t.reg (effReg dest) = v ∧ RegsSameExcept (effReg dest) s t ∧ t.pos = s.pos ∧
  t.halted = haltedAfter s (registerFaults used) ∧ t.exitCode = codeAfter s (registerFaults used) ∧
  SameSurroundings s t

/-- The host-call table is in its one form: ids strictly rising, each below the capacity (R36, log 5). -/
def HostTable.wf (cap : Nat) (l : List (Nat × CallbackId)) : Bool :=
  decide (l.Pairwise (fun p q => p.1 < q.1)) && l.all (fun p => decide (p.1 < cap))

/-- The engine waits only inside a run, and for the callback that its table holds (R182, R183, R188). -/
def pendingOk (s : State) : Bool :=
  match s.pending with
  | none => true
  | some q => !s.halted && decide (lookup q.groupId.toNat q.functionId.toNat s = some q.callback)

/-- The invariant: the parameters are in range (R6), the byte-code's count is a `u32` (R51), also in a binding
that the host has asked for (R5), the table is in its form (R36), and a wait is as R183 says. -/
def Inv (s : State) : Prop :=
  s.params.wf = true ∧ Memory.wf s.byteCode = true ∧ s.commands.all HostCmd.wf = true ∧
  HostTable.wf s.params.hcCapacity s.slots = true ∧ pendingOk s = true

/-- The engine is executing instructions: in a run, and not waiting for the host. -/
def Running (s : State) : Prop := s.halted = false ∧ s.pending = none

/-- The codes reserved for faults and the host's halt request (R201). -/
def reservedCode (c : Byte) : Bool := decide (251 ≤ c.toNat)

/-- The state less the record of its ports: what the engine's next steps depend on. -/
def State.forgetRecord (s : State) : State := { s with replies := [], exchanges := [], trace := [] }

/-- The state of the same engine with the trace hook absent (R218). -/
def State.untraced (s : State) : State := { s with params := { s.params with traceEnable := false }, trace := [] }

/-- The outcome with its next state mapped. -/
def mapNext (f : State → State) : Host.Outcome State Fault Refusal → Host.Outcome State Fault Refusal
  | .next t => .next (f t)
  | .fault r => .fault r
  | .refused r => .refused r

end Sys2Proof.Machine
end

