-- ==== Sys2Proof/Certificates/Slice0/Obligations.lean ====
section
/-! DEFINITION. The statements for the provers, from the numbered rules of spec/. In them `exec i s` is `execute(d)`
of R102, so `s` is the state after the fetch: its `pos` is the index of the next instruction (R10, R29). The terms are
those of Safety.lean. -/

open Sys2Proof Sys2Proof.Machine

-- ==== the codec ====

/-- R71, R74: `unpack` takes opcode, dest, value and the views argA, argB by bit position, for every word. -/
def Obligations.UnpackTakesBitFields : Prop :=
  ∀ w : RawInstr,
    (unpack w).opcode.toNat = w.toNat / 2 ^ 12 ∧
    (unpack w).dest.toNat = w.toNat / 2 ^ 8 % 16 ∧
    (unpack w).value.toNat = w.toNat % 256 ∧
    (unpack w).argA.toNat = w.toNat / 16 % 16 ∧
    (unpack w).argB.toNat = w.toNat % 16

/-- R75: `pack` puts the fields in their places; `packRRR`'s value is `b | (a << 4)`; the two functions are inverses. -/
def Obligations.PackAndUnpackAreInverses : Prop :=
  (∀ d : DecodedInstruction,
    (pack d).toNat = d.opcode.toNat * 2 ^ 12 + d.dest.toNat * 2 ^ 8 + d.value.toNat ∧ unpack (pack d) = d) ∧
  (∀ a b : RegField, pairValue a b = b.zeroExtend 8 ||| (a.zeroExtend 8 <<< 4)) ∧
  (∀ w : RawInstr, pack (unpack w) = w)

/-- The decoder and the encoder are inverses on every instruction and on every word: no bit of an encoding is dropped
(R75, R81). Every instruction term is well formed (R73). -/
def Obligations.DecodeAndEncodeAreInverses : Prop :=
  (∀ i : Instr, decode (encode i) = i) ∧ (∀ w : RawInstr, encode (decode w) = w)

/-- R81, R83: every one of the 65536 words is hit by exactly one row of the opcode table, and decoding it gives that
row's instruction. -/
def Obligations.EveryWordDecodesToItsOneRow : Prop :=
  ∀ w : RawInstr, (opcodeTable.filter (fun r => r.hits w)).map OpcodeRow.mnemonic = [(decode w).mnemonic]

/-- Words written out in 95_test_vectors decode to the instruction they stand for, one for each family. The opcode
numbers are the spec's own choice (92 D1). -/
def Obligations.SpecWordsDecode : Prop :=
  decode 0x0007 = .halt 0 7 ∧ decode 0x1003 = .set 0 3 ∧ decode 0x2013 = .cpy 0 1 3 ∧
  decode 0x3201 = .add 2 0 1 ∧ decode 0x6102 = .div 1 0 2 ∧ decode 0x7700 = .inv 7 0 ∧
  decode 0xA532 = .gre 5 3 2 ∧ decode 0xC600 = .jmp 6 0 .relative ∧ decode 0xC501 = .jmp 5 0 .absolute ∧
  decode 0xC602 = .jmp 6 1 .relative ∧ decode 0xD102 = .hcl 1 2 ∧ decode 0xE5FB = .unassigned14 5 0xFB ∧
  decode 0xFFFF = .unassigned15 15 255

/-- R90: the word of every assembler line decodes to the instruction with the written operands in written order,
unused fields 0, and the literal of `jmp` relative when 0 and absolute otherwise (the fillers and the literal's
encoding are the spec's own choice, 92 D26). -/
def Obligations.AssembledLinesDecode : Prop :=
  (∀ n, decode (AsmLine.halt n).word = .halt 0 n) ∧
  (∀ d n, decode (AsmLine.set d n).word = .set d n) ∧
  (∀ d a, decode (AsmLine.cpy d a).word = .cpy d a 0) ∧
  (∀ d a b, decode (AsmLine.add d a b).word = .add d a b) ∧
  (∀ d a b, decode (AsmLine.sub d a b).word = .sub d a b) ∧
  (∀ d a b, decode (AsmLine.mul d a b).word = .mul d a b) ∧
  (∀ d a b, decode (AsmLine.div d a b).word = .div d a b) ∧
  (∀ d a b, decode (AsmLine.eql d a b).word = .eql d a b) ∧
  (∀ d a b, decode (AsmLine.neq d a b).word = .neq d a b) ∧
  (∀ d a b, decode (AsmLine.gre d a b).word = .gre d a b) ∧
  (∀ d a b, decode (AsmLine.les d a b).word = .les d a b) ∧
  (∀ d, decode (AsmLine.inv d).word = .inv d 0) ∧
  (∀ d l, decode (AsmLine.jmp d l).word = .jmp d 0 (if l = 0 then .relative else .absolute)) ∧
  (∀ g f, decode (AsmLine.hcl g f).word = .hcl g f)

/-- R80: the bits of unused fields change nothing that the instruction does (the spec's own choice, 92 D21). -/
def Obligations.UnusedFieldsAreIgnored : Prop :=
  ∀ (s : State) (d d' a b b' : RegField) (v v' : Byte) (u u' : BitVec 7) (m : JumpMode),
    exec (.halt d v) s = exec (.halt d' v) s ∧
    exec (.unassigned14 d v) s = exec (.unassigned14 d' v) s ∧
    exec (.unassigned15 d v) s = exec (.unassigned15 d' v) s ∧
    exec (.cpy d a b) s = exec (.cpy d a b') s ∧
    exec (.inv d v) s = exec (.inv d v') s ∧
    exec (.jmp d u m) s = exec (.jmp d u' m) s

-- ==== registers, status, faults ====

/-- R22, R23: a field up to 12 is its own index and reads its own slot, with no effect; a field above 12 reads slot 12
and raises 0xFE, recorded only if the run has recorded no code. -/
def Obligations.CheckedReadFallsBackToLocal : Prop :=
  ∀ (i : RegField) (s : State),
    (∀ h : i.toNat ≤ 12, chk i s = (⟨i.toNat, by omega⟩, s) ∧ rd i s = (s.x[i.toNat], s)) ∧
    (13 ≤ i.toNat →
      (chk i s).1 = 12 ∧ (rd i s).1 = s.x[12] ∧ (rd i s).2 = (chk i s).2 ∧
      (chk i s).2 = { s with halted := true, exitCode := if s.halted then s.exitCode else 0xFE })

/-- R203: the halt routine records its code in a running engine and changes nothing else; in a halted one it does
nothing at all (one routine for halts and faults is the spec's own choice, 92 D9). -/
def Obligations.HaltRoutineRecordsFirstCode : Prop :=
  ∀ (c : Byte) (s : State),
    (s.halted = false → haltWith c s = { s with exitCode := c, halted := true }) ∧
    (s.halted = true → haltWith c s = s) ∧
    (∀ c' : Byte, haltWith c' (haltWith c s) = haltWith c s) ∧
    raiseFault c s = haltWith c s

-- ==== the instructions: effect, faults and frame ====

/-- R120 Set: encoding, effect, fault and frame. An illegal `dest` writes `x[12]` and records 0xFE. -/
def Obligations.SetWritesLiteral : Prop :=
  ∀ (d : RegField) (v : Byte) (s : State),
    decode (0b0001#4 ++ d ++ v) = .set d v ∧ (AsmLine.set d v).word = 0b0001#4 ++ d ++ v ∧
    ∃ t, exec (.set d v) s = .next t ∧ WritesOne s t d (BitVec.ofNat 32 v.toNat) [d]

/-- R121 Copy: encoding, effect, faults and frame; `argB` takes no part (access order and unused field: 92 D10, D21). -/
def Obligations.CopyMovesRegister : Prop :=
  ∀ (d a b : RegField) (s : State),
    decode (0b0010#4 ++ d ++ a ++ b) = .cpy d a b ∧
    ∃ t, exec (.cpy d a b) s = .next t ∧ WritesOne s t d (s.reg (effReg a)) [a, d]

/-- R131 Add: encoding, effect, faults and frame; the sources are read before `dest` is written. The wrap of the sum,
which the rule names, is the spec's own choice (R130, 92 D3). -/
def Obligations.AddWritesWrappedSum : Prop :=
  ∀ (d a b : RegField) (s : State),
    decode (0b0011#4 ++ d ++ a ++ b) = .add d a b ∧ (AsmLine.add d a b).word = 0b0011#4 ++ d ++ a ++ b ∧
    ∃ t v, exec (.add d a b) s = .next t ∧
      IsWrap32 v ((s.reg (effReg a)).toInt + (s.reg (effReg b)).toInt) ∧ WritesOne s t d v [a, b, d]

/-- R132 Sub: as Add, with `argA - argB`. -/
def Obligations.SubWritesWrappedDifference : Prop :=
  ∀ (d a b : RegField) (s : State),
    decode (0b0100#4 ++ d ++ a ++ b) = .sub d a b ∧ (AsmLine.sub d a b).word = 0b0100#4 ++ d ++ a ++ b ∧
    ∃ t v, exec (.sub d a b) s = .next t ∧
      IsWrap32 v ((s.reg (effReg a)).toInt - (s.reg (effReg b)).toInt) ∧ WritesOne s t d v [a, b, d]

/-- R133 Mul: the low 32 bits of the exact product (the spec's own choice, 92 D3). -/
def Obligations.MulWritesWrappedProduct : Prop :=
  ∀ (d a b : RegField) (s : State),
    decode (0b0101#4 ++ d ++ a ++ b) = .mul d a b ∧
    ∃ t v, exec (.mul d a b) s = .next t ∧
      IsWrap32 v ((s.reg (effReg a)).toInt * (s.reg (effReg b)).toInt) ∧ WritesOne s t d v [a, b, d]

/-- R134, R137 Div with a divisor other than 0: the quotient truncated toward zero, wrapped (92 D4); the fields are
used in the order argB, argA, dest (92 D10). -/
def Obligations.DivWritesTruncatedQuotient : Prop :=
  ∀ (d a b : RegField) (s : State),
    decode (0b0110#4 ++ d ++ a ++ b) = .div d a b ∧
    (s.reg (effReg b) ≠ 0 →
      ∃ t v, exec (.div d a b) s = .next t ∧
        IsWrap32 v (truncQuot (s.reg (effReg a)).toInt (s.reg (effReg b)).toInt) ∧ WritesOne s t d v [b, a, d])

/-- R134, R205, R206 Div by 0: no register is written, `pos` stays, the run halts; the code is 0xFC unless the divisor
field itself is illegal, which records 0xFE first; `argA` and `dest` are not accessed (92 D9, D10). -/
def Obligations.DivByZeroHaltsUnwritten : Prop :=
  ∀ (d a b : RegField) (s : State), s.reg (effReg b) = 0 →
    ∃ t, exec (.div d a b) s = .next t ∧ t.x = s.x ∧ t.pos = s.pos ∧ t.halted = true ∧
      t.exitCode = codeAfter s (registerFaults [b] ++ [0xFC]) ∧ SameSurroundings s t

/-- R135 Inv: arithmetic negation in place, wrapped (92 D3); `value` takes no part (92 D21). -/
def Obligations.InvNegatesInPlace : Prop :=
  ∀ (d : RegField) (u : Byte) (s : State),
    decode (0b0111#4 ++ d ++ u) = .inv d u ∧
    ∃ t v, exec (.inv d u) s = .next t ∧ IsWrap32 v (-(s.reg (effReg d)).toInt) ∧ WritesOne s t d v [d, d]

/-- R151 Eql: encoding, effect, faults and frame. -/
def Obligations.EqlWritesOneOrZero : Prop :=
  ∀ (d a b : RegField) (s : State),
    decode (0b1000#4 ++ d ++ a ++ b) = .eql d a b ∧ (AsmLine.eql d a b).word = 0b1000#4 ++ d ++ a ++ b ∧
    ∃ t, exec (.eql d a b) s = .next t ∧
      WritesOne s t d (if s.reg (effReg a) = s.reg (effReg b) then 1 else 0) [a, b, d]

/-- R152 Neq: encoding, effect, faults and frame. -/
def Obligations.NeqWritesOneOrZero : Prop :=
  ∀ (d a b : RegField) (s : State),
    decode (0b1001#4 ++ d ++ a ++ b) = .neq d a b ∧ (AsmLine.neq d a b).word = 0b1001#4 ++ d ++ a ++ b ∧
    ∃ t, exec (.neq d a b) s = .next t ∧
      WritesOne s t d (if s.reg (effReg a) = s.reg (effReg b) then 0 else 1) [a, b, d]

/-- R153, R154 Grt and Let: signed and strict, `argA` on the left (the spec's own choice, 92 D5). -/
def Obligations.GrtAndLetCompareSigned : Prop :=
  ∀ (d a b : RegField) (s : State),
    decode (0b1010#4 ++ d ++ a ++ b) = .gre d a b ∧ decode (0b1011#4 ++ d ++ a ++ b) = .les d a b ∧
    (∃ t, exec (.gre d a b) s = .next t ∧
      WritesOne s t d (if (s.reg (effReg a)).toInt > (s.reg (effReg b)).toInt then 1 else 0) [a, b, d]) ∧
    (∃ t, exec (.les d a b) s = .next t ∧
      WritesOne s t d (if (s.reg (effReg a)).toInt < (s.reg (effReg b)).toInt then 1 else 0) [a, b, d])

/-- R160 to R163 Jump, for a byte-code whose count is a `u32`: a relative jump by 0 falls through; otherwise the target
(relative: the jump's own index plus the offset; absolute: the offset) is taken exactly when it is in `[0, bcCount)`,
and is 0xFD with `pos` kept when it is not. An illegal `dest` reads `x[12]`, records 0xFE first, and the jump is still
evaluated. No register is written (mode, exact arithmetic and priority: 92 D6, D7, D9). -/
def Obligations.JumpTransfersOrFaults : Prop :=
  ∀ (d : RegField) (u : BitVec 7) (m : JumpMode) (s : State), Memory.wf s.byteCode = true →
    let off := (s.reg (effReg d)).toInt
    let dst := jumpDest m s.pos off
    let stays : Bool := decide (m = .relative) && decide (off = 0)
    let inside : Bool := decide (0 ≤ dst) && decide (dst < (s.byteCode.count : Int))
    let codes := registerFaults [d] ++ (if stays || inside then [] else [0xFD])
    decode (0b1100#4 ++ d ++ u ++ (if m = .absolute then 1#1 else 0#1)) = .jmp d u m ∧
    ∃ t, exec (.jmp d u m) s = .next t ∧
      (t.pos.toNat : Int) = (if !stays && inside then dst else (s.pos.toNat : Int)) ∧
      t.x = s.x ∧ t.halted = haltedAfter s codes ∧ t.exitCode = codeAfter s codes ∧ SameSurroundings s t

/-- R103, R104 Halt and the unassigned opcodes 14 and 15: any value becomes the exit code, `dest` takes no part, no
register is read or written, and `pos` stays (92 D1, D20, D21). -/
def Obligations.HaltLikeOpcodesEndTheRun : Prop :=
  ∀ (d : RegField) (v : Byte) (s : State),
    let ended (t : State) : Prop := t.x = s.x ∧ t.pos = s.pos ∧ t.halted = true ∧
      t.exitCode = codeAfter s [v] ∧ SameSurroundings s t
    (decode (0b0000#4 ++ d ++ v) = .halt d v ∧ ∃ t, exec (.halt d v) s = .next t ∧ ended t) ∧
    (decode (0b1110#4 ++ d ++ v) = .unassigned14 d v ∧ ∃ t, exec (.unassigned14 d v) s = .next t ∧ ended t) ∧
    (decode (0b1111#4 ++ d ++ v) = .unassigned15 d v ∧ ∃ t, exec (.unassigned15 d v) s = .next t ∧ ended t)

/-- R180 to R184 CallHost on an occupied slot, when the host has answered: the answered registers are installed, the
exchange is recorded with the registers sent, the halt request gives 0xFB, and nothing else changes: not `pos`, the
byte-code, the table or the parameters (R182; 92 D14, D25; the queue of answers is the model's, log 3). -/
def Obligations.CallHostInstallsTheAnswer : Prop :=
  ∀ (g : BitVec 4) (f : BitVec 8) (c : CallbackId) (a : HcallAnswer) (rest : List HcallAnswer) (s : State),
    HostTable.wf s.params.hcCapacity s.slots = true → (g.toNat * 256 + f.toNat, c) ∈ s.slots →
    s.answers = a :: rest →
    decode (0b1101#4 ++ g ++ f) = .hcl g f ∧
    ∃ t, exec (.hcl g f) s = .next t ∧ t.x = a.regs ∧ t.answers = rest ∧ t.pending = none ∧
      t.exchanges = s.exchanges ++ [⟨⟨c, g, f⟩, s.x, a⟩] ∧
      t.halted = haltedAfter s (if a.haltReq then [0xFB] else []) ∧
      t.exitCode = codeAfter s (if a.haltReq then [0xFB] else []) ∧
      t.pos = s.pos ∧ t.slots = s.slots ∧ t.params = s.params ∧ t.byteCode = s.byteCode ∧
      t.commands = s.commands ∧ t.replies = s.replies ∧ t.trace = s.trace

/-- R183 CallHost on an occupied slot, before the host has answered: the request is sent and the engine waits; nothing
else changes (the pending request as state is the model's, log 3). -/
def Obligations.CallHostWaitsForTheAnswer : Prop :=
  ∀ (g : BitVec 4) (f : BitVec 8) (c : CallbackId) (s : State),
    HostTable.wf s.params.hcCapacity s.slots = true → (g.toNat * 256 + f.toNat, c) ∈ s.slots →
    s.answers = [] →
    exec (.hcl g f) s = .next { s with pending := some ⟨c, g, f⟩ }

/-- R181, R185 CallHost on an empty or missing slot: 0xFF and a halt when strict, no effect at all otherwise; no field
goes through the register check (92 D15, D17). -/
def Obligations.CallHostMissIsFaultOnlyWhenStrict : Prop :=
  ∀ (g : BitVec 4) (f : BitVec 8) (s : State),
    HostTable.wf s.params.hcCapacity s.slots = true → (∀ c, (g.toNat * 256 + f.toNat, c) ∉ s.slots) →
    (s.params.strictHostcall = false → exec (.hcl g f) s = .next s) ∧
    (s.params.strictHostcall = true →
      exec (.hcl g f) s = .next { s with halted := true, exitCode := if s.halted then s.exitCode else 0xFF })

-- ==== the step ====

/-- R101: in a running engine, when the word at `pos` of the byte-code decodes to an instruction, a step is `exec` of
it on the state with `pos` advanced modulo 2^32, followed by the end of the instruction: the trace event and the test
of `halted` (`retire`), which the trace and end-of-run statements describe. The pending request as state is the
model's choice (log 3). -/
def Obligations.StepRunsTheDecodedInstruction : Prop :=
  ∀ (s : State) (w : RawInstr),
    s.halted = false → s.pending = none → s.byteCode.valid = true → s.byteCode.words[s.pos.toNat]? = some w →
    step s = mapNext (retire (unpack w)) (exec (decode w) { s with pos := BitVec.ofNat 32 (s.pos.toNat + 1) })

/-- R52, R105: with an invalid byte-code, or `pos` at or beyond its count, the step is a synthetic `halt 0`: the run
ends with exit code 0, the registers stay, and `pos` still advances (92 D1, D13). The lists of replies and events are
the model's choice (log 2). -/
def Obligations.RunningOffTheEndExitsZero : Prop :=
  ∀ s : State, Running s → (s.byteCode.valid = false ∨ s.byteCode.count ≤ s.pos.toNat) →
    step s = .next { s with
      pos := s.pos + 1, halted := true, exitCode := 0,
      trace := s.trace ++ (if s.params.traceEnable then [⟨⟨0, 0, 0⟩, s.x⟩] else []),
      replies := s.replies ++ [.exited 0] }

/-- Every instruction on every state has a next state, and so has every step. The MODEL'S CHOICE, inferred from the
spec and no rule of it: that no fault of the spec stops the model is log 9 (DEDUCED from R202, R204, R208; R81 and R102
say that dispatch is total); that a halted engine without a request steps to itself is log 2, where R101 enables a step
only while `halted = false`; that a waiting engine steps to itself is log 3, where 93 I11 calls the wait stuck. -/
def Obligations.EveryStepHasNextState : Prop :=
  (∀ (i : Instr) (s : State), ∃ t, exec i s = .next t) ∧ (∀ s : State, ∃ t, step s = .next t)

/-- R30, R164: a step of a running engine advances `pos` by one modulo 2^32, or it is a Jump and `pos` is an index of
the byte-code. -/
def Obligations.OnlyJumpRedirectsPos : Prop :=
  ∀ s t : State, Memory.wf s.byteCode = true → Running s → step s = .next t →
    t.pos = s.pos + 1 ∨
    (∃ d u m, decode (fetch s.byteCode s.pos) = .jmp d u m) ∧ t.pos.toNat < s.byteCode.count

/-- R62, R188: the byte-code, the host-call table and the parameters are constant throughout a run, and no host request
is taken in it (92 D16, D23). The queue of requests is the model's choice (log 2). -/
def Obligations.RunKeepsProgramAndTable : Prop :=
  ∀ s t : State, s.halted = false → step s = .next t →
    t.byteCode = s.byteCode ∧ t.slots = s.slots ∧ t.params = s.params ∧ t.commands = s.commands

/-- R32, R203: within a run the exit code changes only in the step that halts, and in a run a step that does not halt
keeps it. -/
def Obligations.ExitCodeChangesOnlyWithHalt : Prop :=
  ∀ s t : State, s.halted = false → step s = .next t → t.halted = false → t.exitCode = s.exitCode

/-- R200, R201, R202: a step of a running engine that halts has a cause: it ran Halt or an unassigned opcode, whose
value is the exit code, or the exit code is one of the five reserved codes. -/
def Obligations.EveryHaltHasACause : Prop :=
  ∀ s t : State, Running s → step s = .next t → t.halted = true →
    (∃ d v, decode (fetch s.byteCode s.pos) ∈ [Instr.halt d v, Instr.unassigned14 d v, Instr.unassigned15 d v] ∧
      t.exitCode = v) ∨
    (reservedCode t.exitCode = true ∧ t.exitCode ∈ [(0xFB : Byte), 0xFC, 0xFD, 0xFE, 0xFF])

/-- R106, R100: the step that ends a run returns its exit code on CTRL and opens REGOBS; a step that does not end the
run returns nothing and REGOBS stays closed (92 D22). The list of replies is the model's choice (log 2). -/
def Obligations.RunEndReturnsExitCode : Prop :=
  ∀ s t : State, s.halted = false → step s = .next t →
    (t.halted = true → t.replies = s.replies ++ [.exited t.exitCode] ∧ t.regObs = some ⟨t.x, t.exitCode, true⟩) ∧
    (t.halted = false → t.replies = s.replies ∧ t.regObs = none)

/-- R101, R218: with the trace on, each executed instruction, a halting or synthetic one included, emits exactly one
event with the decoded fetch and the registers it left; an instruction that still waits for the host has not ended
and emits none; with the trace off there is no event (92 D18). The list of events is the model's choice (log 2), and so
is the event of a CallHost that waits, which comes when it completes (log 3). -/
def Obligations.OneTraceEventPerInstruction : Prop :=
  ∀ s t : State, Running s → step s = .next t →
    t.trace = s.trace ++
      (if s.params.traceEnable && t.pending.isNone then [⟨unpack (fetch s.byteCode s.pos), t.x⟩] else [])

/-- R218: the hook cannot change the engine: the step of the engine without the hook is the step of the engine with it,
less the events (92 D18). The list of events is the model's choice (log 2). -/
def Obligations.TraceHookChangesNothing : Prop :=
  ∀ s : State, step s.untraced = mapNext State.untraced (step s)

/-- R107, R183: a waiting engine with no answer stays exactly as it is, for ever; when an answer has come, the step
installs it and ends the CallHost: the event of that CallHost, and the exit code when the host asked to halt. The pending
request, the queue of answers and the step from a wait to itself are the model's choice (log 3; 93 I11 calls the wait
stuck), and so are the lists of replies and events (log 2). -/
def Obligations.WaitEndsOnlyWithTheAnswer : Prop :=
  ∀ (s : State) (q : HcallRequest), s.halted = false → s.pending = some q →
    (s.answers = [] → ∀ k : Nat, Sys2Proof.core.run k s = .next s) ∧
    (∀ a rest, s.answers = a :: rest →
      step s = .next { s with
        x := a.regs, answers := rest, pending := none, exchanges := s.exchanges ++ [⟨q, s.x, a⟩],
        halted := a.haltReq, exitCode := if a.haltReq then 0xFB else s.exitCode,
        trace := s.trace ++ (if s.params.traceEnable then [⟨⟨13, q.groupId, q.functionId⟩, a.regs⟩] else []),
        replies := s.replies ++ (if a.haltReq then [.exited 0xFB] else []) })

-- ==== the halted engine and the host ====

/-- R230, R231: what construction leaves, for any parameters and byte-code (the zeros and the empty table are the
spec's own choice, 92 D12, log 6); `State.reset` is such a construction, with the parameters and the unbound byte-code that
log 1 and log 4 name. -/
def Obligations.ConstructionValues : Prop :=
  (∀ (p : Params) (bc : ByteCode),
    (State.construct p bc).halted = true ∧ (State.construct p bc).exitCode = 0 ∧
    (∀ j : Fin 13, (State.construct p bc).reg j = 0) ∧ (State.construct p bc).pos = 0 ∧
    (∀ g f : Nat, lookup g f (State.construct p bc) = none) ∧
    (State.construct p bc).byteCode = bc ∧ (State.construct p bc).params = p) ∧
  ∃ p bc, State.reset = State.construct p bc ∧ 1 ≤ p.hcCapacity ∧ p.hcCapacity ≤ 4096 ∧
    p.strictHostcall = false ∧ p.traceEnable = false

/-- R100, R232: run start clears `halted`, the exit code, all 13 registers and `pos`, and keeps the byte-code, the table
and the parameters (`pos` at run start: the spec's own choice, 92 D11, log 6). The queue of requests is the model's choice (log 2). -/
def Obligations.RunStartClears : Prop :=
  ∀ (s : State) (rest : List HostCmd), s.halted = true → s.commands = .run :: rest →
    ∃ t, step s = .next t ∧ t.halted = false ∧ t.exitCode = 0 ∧ (∀ j : Fin 13, t.reg j = 0) ∧ t.pos = 0 ∧
      t.commands = rest ∧ t.slots = s.slots ∧ t.params = s.params ∧ t.byteCode = s.byteCode ∧
      t.pending = s.pending ∧ t.answers = s.answers ∧ t.replies = s.replies ∧ t.exchanges = s.exchanges ∧
      t.trace = s.trace

/-- R233: binding a byte-code while halted sets `pos` to 0 and changes nothing else of the engine (92 D23). The
queue of requests is the model's choice (log 2). -/
def Obligations.BindingResetsPosOnly : Prop :=
  ∀ (s : State) (bc : ByteCode) (rest : List HostCmd), s.halted = true → s.commands = .bind bc :: rest →
    step s = .next { s with byteCode := bc, pos := 0, commands := rest }

/-- R186: a registration answers OutOfRange and leaves the table, or Ok or Overwritten and sets exactly the slot of the
packed id (the mapping of ids to slots is the spec's own choice, 92 D15). The queue of requests and the replies are the
model's choice (log 2), and so is the table's form (log 5). -/
def Obligations.RegistrationSetsOneSlot : Prop :=
  ∀ (s : State) (c : CallbackId) (g f : Nat) (rest : List HostCmd),
    s.halted = true → s.commands = .register c g f :: rest → HostTable.wf s.params.hcCapacity s.slots = true →
    let id := g * 256 + f
    (15 < g ∨ 255 < f ∨ s.params.hcCapacity ≤ id →
      step s = .next { s with commands := rest, replies := s.replies ++ [.registered .outOfRange] }) ∧
    (g ≤ 15 ∧ f ≤ 255 ∧ id < s.params.hcCapacity →
      ∃ slots r, step s = .next { s with
          slots := slots, commands := rest, replies := s.replies ++ [.registered r] } ∧
        (r = .ok ∧ (∀ c', (id, c') ∉ s.slots) ∨ r = .overwritten ∧ ∃ c', (id, c') ∈ s.slots) ∧
        (∀ k c', (k, c') ∈ slots ↔ if k = id then c' = c else (k, c') ∈ s.slots))

/-- R187: of two registrations at one pair of ids, the second is answered "overwritten", and a CallHost of that pair
then goes to the second callback only: it is the one requested while no answer is there, and the one of the exchange
when there is one. How a request is taken, answered and dispatched is the MODEL'S CHOICE: the queue of requests and the
replies are log 2, the pending request, the answers and the exchanges are log 3, the table's form is log 5. -/
def Obligations.OverwriteDispatchesSecondOnly : Prop :=
  ∀ (s : State) (c₁ c₂ : CallbackId) (g : BitVec 4) (f : BitVec 8) (rest : List HostCmd),
    s.halted = true → HostTable.wf s.params.hcCapacity s.slots = true →
    g.toNat * 256 + f.toNat < s.params.hcCapacity →
    s.commands = .register c₁ g.toNat f.toNat :: .register c₂ g.toNat f.toNat :: rest →
    ∃ t u, step s = .next t ∧ step t = .next u ∧
      u.replies = t.replies ++ [.registered .overwritten] ∧
      ∀ v : State, v.slots = u.slots → v.params = u.params →
        (v.answers = [] → exec (.hcl g f) v = .next { v with pending := some ⟨c₂, g, f⟩ }) ∧
        (∀ a later, v.answers = a :: later →
          ∃ w, exec (.hcl g f) v = .next w ∧ w.x = a.regs ∧ w.answers = later ∧
            w.exchanges = v.exchanges ++ [⟨⟨c₂, g, f⟩, v.x, a⟩])

/-- R215, R100: a halted engine with no request stays as it is; binding and registration keep the registers and the
exit code; and only `run()` leaves the Halted state. The queue of requests, and that a halted engine without one steps to
itself, are the model's choice (log 2). -/
def Obligations.OnlyRunLeavesHalted : Prop :=
  ∀ s t : State, s.halted = true → step s = .next t →
    (s.commands = [] → t = s) ∧
    (t.halted = true → t.x = s.x ∧ t.exitCode = s.exitCode) ∧
    (t.halted = false ↔ ∃ rest, s.commands = .run :: rest)

-- ==== invariants and runs ====

/-- Every step keeps the invariant: parameters in range, the count a `u32`, the table in its form, and waiting only
inside a run for a callback that the table holds (R6, R36, R51, R183, R188). The queue of requests, the pending request
and the table's form are the model's choice (log 2, log 3, log 5). -/
def Obligations.StepKeepsInvariant : Prop :=
  ∀ s t : State, Inv s → step s = .next t → Inv t

/-- The invariant holds after construction with parameters in range and a byte-code whose count is a `u32`, and so at
`State.reset`, whose parameters and byte-code are the model's choice (log 1, log 4). -/
def Obligations.ConstructionMeetsInvariant : Prop :=
  (∀ (p : Params) (bc : ByteCode), p.wf = true → Memory.wf bc = true → Inv (State.construct p bc)) ∧
  Inv State.reset

/-- The record of the ports feeds nothing back: steps of states that differ only in it differ only in it. That the record
is state is the model's choice (log 2, log 3). -/
def Obligations.RecordHasNoEffect : Prop :=
  ∀ s t : State, s.forgetRecord = t.forgetRecord →
    mapNext State.forgetRecord (step s) = mapNext State.forgetRecord (step t)

/-- R232: a run depends only on the byte-code, the parameters, the table and the host: two halted engines that agree on
those, whatever their registers, exit codes and positions were left at by earlier runs, agree after any number of
steps from the start of the run, up to the record of the earlier runs (92 D11, log 6). The queues of requests and answers
are the model's choice (log 2, log 3). -/
def Obligations.RunIgnoresEarlierRuns : Prop :=
  ∀ (s t : State) (rest : List HostCmd), s.halted = true → t.halted = true →
    s.commands = .run :: rest → t.commands = .run :: rest →
    s.byteCode = t.byteCode → s.params = t.params → s.slots = t.slots → s.answers = t.answers →
    s.pending = none → t.pending = none →
    ∀ k : Nat, mapNext State.forgetRecord (Sys2Proof.core.run (k + 1) s) =
      mapNext State.forgetRecord (Sys2Proof.core.run (k + 1) t)

-- ==== the file format ====

/-- R57: a file written in the format reads back as the same words, under any magic tag and version, for a count that
is a `u32` (little-endian: the spec's own choice, 92 D19). -/
def Obligations.FileRoundTrip : Prop :=
  ∀ (p : FileParams) (ws : List RawInstr), ws.length < 2 ^ 32 → readFile p (writeFile p ws) = .ok ws

/-- R57: a reader rejects a file with another magic tag of the same length, and a file whose version exceeds the one
it supports. -/
def Obligations.FileReaderRejects : Prop :=
  ∀ (p q : FileParams) (ws : List RawInstr), p.magic.length = q.magic.length →
    (q.magic ≠ p.magic → readFile p (writeFile q ws) = .error .badMagic) ∧
    (q.magic = p.magic → p.version.toNat < q.version.toNat → readFile p (writeFile q ws) = .error .badVersion)
end

