-- ==== Sys2Proof/Laws/State.lean ====
section
/-! SUPPORT. One lemma per field per update, so that no proof unfolds a record update. -/

namespace Sys2Proof.Machine

section SetReg
variable (s : State) (i : Fin 13) (v : Word)
@[simp] theorem setReg_pos : (s.setReg i v).pos = s.pos := rfl
@[simp] theorem setReg_halted : (s.setReg i v).halted = s.halted := rfl
@[simp] theorem setReg_exitCode : (s.setReg i v).exitCode = s.exitCode := rfl
@[simp] theorem setReg_slots : (s.setReg i v).slots = s.slots := rfl
@[simp] theorem setReg_params : (s.setReg i v).params = s.params := rfl
@[simp] theorem setReg_byteCode : (s.setReg i v).byteCode = s.byteCode := rfl
@[simp] theorem setReg_pending : (s.setReg i v).pending = s.pending := rfl
@[simp] theorem setReg_commands : (s.setReg i v).commands = s.commands := rfl
@[simp] theorem setReg_answers : (s.setReg i v).answers = s.answers := rfl
@[simp] theorem setReg_replies : (s.setReg i v).replies = s.replies := rfl
@[simp] theorem setReg_exchanges : (s.setReg i v).exchanges = s.exchanges := rfl
@[simp] theorem setReg_trace : (s.setReg i v).trace = s.trace := rfl
/-- Read after write: the written register has the value, every other register its own. -/
theorem reg_setReg (j : Fin 13) : (s.setReg i v).reg j = if j = i then v else s.reg j := by
  simp only [State.reg, State.setReg, Vector.getElem_set]
  by_cases h : j = i
  · simp [h]
  · have : ¬ i.val = j.val := fun e => h (Fin.ext e.symm)
    simp [h, this]
@[simp] theorem reg_setReg_self : (s.setReg i v).reg i = v := by simp [reg_setReg]
theorem reg_setReg_ne {j : Fin 13} (h : j ≠ i) : (s.setReg i v).reg j = s.reg j := by simp [reg_setReg, h]
end SetReg

section HaltWith
variable (c : Byte) (s : State)
@[simp] theorem haltWith_halted : (haltWith c s).halted = true := by
  unfold haltWith; split <;> simp_all
theorem haltWith_exitCode : (haltWith c s).exitCode = if s.halted then s.exitCode else c := by
  unfold haltWith; split <;> rfl
@[simp] theorem haltWith_x : (haltWith c s).x = s.x := by unfold haltWith; split <;> rfl
@[simp] theorem haltWith_reg (j : Fin 13) : (haltWith c s).reg j = s.reg j := by simp [State.reg]
@[simp] theorem haltWith_pos : (haltWith c s).pos = s.pos := by unfold haltWith; split <;> rfl
@[simp] theorem haltWith_slots : (haltWith c s).slots = s.slots := by unfold haltWith; split <;> rfl
@[simp] theorem haltWith_params : (haltWith c s).params = s.params := by unfold haltWith; split <;> rfl
@[simp] theorem haltWith_byteCode : (haltWith c s).byteCode = s.byteCode := by unfold haltWith; split <;> rfl
@[simp] theorem haltWith_pending : (haltWith c s).pending = s.pending := by unfold haltWith; split <;> rfl
@[simp] theorem haltWith_commands : (haltWith c s).commands = s.commands := by unfold haltWith; split <;> rfl
@[simp] theorem haltWith_answers : (haltWith c s).answers = s.answers := by unfold haltWith; split <;> rfl
@[simp] theorem haltWith_replies : (haltWith c s).replies = s.replies := by unfold haltWith; split <;> rfl
@[simp] theorem haltWith_exchanges : (haltWith c s).exchanges = s.exchanges := by unfold haltWith; split <;> rfl
@[simp] theorem haltWith_trace : (haltWith c s).trace = s.trace := by unfold haltWith; split <;> rfl
end HaltWith

section Advance
variable (s : State)
@[simp] theorem advance_x : (advance s).x = s.x := rfl
@[simp] theorem advance_reg (j : Fin 13) : (advance s).reg j = s.reg j := rfl
@[simp] theorem advance_pos : (advance s).pos = s.pos + 1 := rfl
@[simp] theorem advance_halted : (advance s).halted = s.halted := rfl
@[simp] theorem advance_exitCode : (advance s).exitCode = s.exitCode := rfl
@[simp] theorem advance_slots : (advance s).slots = s.slots := rfl
@[simp] theorem advance_params : (advance s).params = s.params := rfl
@[simp] theorem advance_byteCode : (advance s).byteCode = s.byteCode := rfl
@[simp] theorem advance_pending : (advance s).pending = s.pending := rfl
@[simp] theorem advance_commands : (advance s).commands = s.commands := rfl
@[simp] theorem advance_answers : (advance s).answers = s.answers := rfl
@[simp] theorem advance_replies : (advance s).replies = s.replies := rfl
@[simp] theorem advance_exchanges : (advance s).exchanges = s.exchanges := rfl
@[simp] theorem advance_trace : (advance s).trace = s.trace := rfl
end Advance

section RunStart
variable (s : State)
@[simp] theorem runStart_x : (runStart s).x = RegFile.zero := rfl
@[simp] theorem runStart_pos : (runStart s).pos = 0 := rfl
@[simp] theorem runStart_halted : (runStart s).halted = false := rfl
@[simp] theorem runStart_exitCode : (runStart s).exitCode = 0 := rfl
@[simp] theorem runStart_slots : (runStart s).slots = s.slots := rfl
@[simp] theorem runStart_params : (runStart s).params = s.params := rfl
@[simp] theorem runStart_byteCode : (runStart s).byteCode = s.byteCode := rfl
@[simp] theorem runStart_pending : (runStart s).pending = s.pending := rfl
@[simp] theorem runStart_commands : (runStart s).commands = s.commands := rfl
@[simp] theorem runStart_answers : (runStart s).answers = s.answers := rfl
@[simp] theorem runStart_replies : (runStart s).replies = s.replies := rfl
@[simp] theorem runStart_exchanges : (runStart s).exchanges = s.exchanges := rfl
@[simp] theorem runStart_trace : (runStart s).trace = s.trace := rfl
@[simp] theorem zero_reg (j : Nat) (h : j < 13) : RegFile.zero[j] = (0 : Word) := by simp [RegFile.zero]
end RunStart

section EmitTrace
variable (d : DecodedInstruction) (s : State)
theorem emitTrace_trace :
    (emitTrace d s).trace = if s.params.traceEnable then s.trace ++ [⟨d, s.x⟩] else s.trace := by
  unfold emitTrace; split <;> rfl
@[simp] theorem emitTrace_x : (emitTrace d s).x = s.x := by unfold emitTrace; split <;> rfl
@[simp] theorem emitTrace_pos : (emitTrace d s).pos = s.pos := by unfold emitTrace; split <;> rfl
@[simp] theorem emitTrace_halted : (emitTrace d s).halted = s.halted := by unfold emitTrace; split <;> rfl
@[simp] theorem emitTrace_exitCode : (emitTrace d s).exitCode = s.exitCode := by unfold emitTrace; split <;> rfl
@[simp] theorem emitTrace_slots : (emitTrace d s).slots = s.slots := by unfold emitTrace; split <;> rfl
@[simp] theorem emitTrace_params : (emitTrace d s).params = s.params := by unfold emitTrace; split <;> rfl
@[simp] theorem emitTrace_byteCode : (emitTrace d s).byteCode = s.byteCode := by unfold emitTrace; split <;> rfl
@[simp] theorem emitTrace_pending : (emitTrace d s).pending = s.pending := by unfold emitTrace; split <;> rfl
@[simp] theorem emitTrace_commands : (emitTrace d s).commands = s.commands := by unfold emitTrace; split <;> rfl
@[simp] theorem emitTrace_answers : (emitTrace d s).answers = s.answers := by unfold emitTrace; split <;> rfl
@[simp] theorem emitTrace_replies : (emitTrace d s).replies = s.replies := by unfold emitTrace; split <;> rfl
@[simp] theorem emitTrace_exchanges : (emitTrace d s).exchanges = s.exchanges := by unfold emitTrace; split <;> rfl
end EmitTrace

section EndOfRun
variable (s : State)
theorem endOfRun_replies :
    (endOfRun s).replies = if s.halted then s.replies ++ [.exited s.exitCode] else s.replies := by
  unfold endOfRun; split <;> rfl
@[simp] theorem endOfRun_x : (endOfRun s).x = s.x := by unfold endOfRun; split <;> rfl
@[simp] theorem endOfRun_pos : (endOfRun s).pos = s.pos := by unfold endOfRun; split <;> rfl
@[simp] theorem endOfRun_halted : (endOfRun s).halted = s.halted := by unfold endOfRun; split <;> simp_all
@[simp] theorem endOfRun_exitCode : (endOfRun s).exitCode = s.exitCode := by unfold endOfRun; split <;> rfl
@[simp] theorem endOfRun_slots : (endOfRun s).slots = s.slots := by unfold endOfRun; split <;> rfl
@[simp] theorem endOfRun_params : (endOfRun s).params = s.params := by unfold endOfRun; split <;> rfl
@[simp] theorem endOfRun_byteCode : (endOfRun s).byteCode = s.byteCode := by unfold endOfRun; split <;> rfl
@[simp] theorem endOfRun_pending : (endOfRun s).pending = s.pending := by unfold endOfRun; split <;> rfl
@[simp] theorem endOfRun_commands : (endOfRun s).commands = s.commands := by unfold endOfRun; split <;> rfl
@[simp] theorem endOfRun_answers : (endOfRun s).answers = s.answers := by unfold endOfRun; split <;> rfl
@[simp] theorem endOfRun_exchanges : (endOfRun s).exchanges = s.exchanges := by unfold endOfRun; split <;> rfl
@[simp] theorem endOfRun_trace : (endOfRun s).trace = s.trace := by unfold endOfRun; split <;> rfl
end EndOfRun

section Retire
variable (d : DecodedInstruction) (s : State)
@[simp] theorem retire_x : (retire d s).x = s.x := by unfold retire; split <;> simp
@[simp] theorem retire_pos : (retire d s).pos = s.pos := by unfold retire; split <;> simp
@[simp] theorem retire_halted : (retire d s).halted = s.halted := by unfold retire; split <;> simp
@[simp] theorem retire_exitCode : (retire d s).exitCode = s.exitCode := by unfold retire; split <;> simp
@[simp] theorem retire_slots : (retire d s).slots = s.slots := by unfold retire; split <;> simp
@[simp] theorem retire_params : (retire d s).params = s.params := by unfold retire; split <;> simp
@[simp] theorem retire_byteCode : (retire d s).byteCode = s.byteCode := by unfold retire; split <;> simp
@[simp] theorem retire_pending : (retire d s).pending = s.pending := by unfold retire; split <;> simp
@[simp] theorem retire_commands : (retire d s).commands = s.commands := by unfold retire; split <;> simp
@[simp] theorem retire_answers : (retire d s).answers = s.answers := by unfold retire; split <;> simp
@[simp] theorem retire_exchanges : (retire d s).exchanges = s.exchanges := by unfold retire; split <;> simp
/-- What the end of an instruction adds to the replies (R106). -/
theorem retire_replies : (retire d s).replies =
    if s.pending.isSome then s.replies
    else if s.halted then s.replies ++ [.exited s.exitCode] else s.replies := by
  unfold retire; split
  · rfl
  · simp [endOfRun_replies]
/-- What the end of an instruction adds to the trace (R218). -/
theorem retire_trace : (retire d s).trace =
    if s.pending.isSome then s.trace
    else if s.params.traceEnable then s.trace ++ [⟨d, s.x⟩] else s.trace := by
  unfold retire; split
  · rfl
  · simp [emitTrace_trace]
end Retire

end Sys2Proof.Machine
end

