-- ==== Sys2Proof/Laws/Ops.lean ====
section
/-! SUPPORT. What each shared operation does, said once: the checked accesses, the operand forms, the jump, fetch
and the HCALL exchange. -/

namespace Sys2Proof.Machine

/-- The state after the use of a register field (R22). -/
def useField (i : RegField) (s : State) : State := if illegalField i then haltWith 0xFE s else s

section UseField
variable (i : RegField) (s : State)
@[simp] theorem useField_x : (useField i s).x = s.x := by unfold useField; split <;> simp
@[simp] theorem useField_reg (j : Fin 13) : (useField i s).reg j = s.reg j := by simp [State.reg]
@[simp] theorem useField_pos : (useField i s).pos = s.pos := by unfold useField; split <;> simp
@[simp] theorem useField_slots : (useField i s).slots = s.slots := by unfold useField; split <;> simp
@[simp] theorem useField_params : (useField i s).params = s.params := by unfold useField; split <;> simp
@[simp] theorem useField_byteCode : (useField i s).byteCode = s.byteCode := by unfold useField; split <;> simp
@[simp] theorem useField_pending : (useField i s).pending = s.pending := by unfold useField; split <;> simp
@[simp] theorem useField_commands : (useField i s).commands = s.commands := by unfold useField; split <;> simp
@[simp] theorem useField_answers : (useField i s).answers = s.answers := by unfold useField; split <;> simp
@[simp] theorem useField_replies : (useField i s).replies = s.replies := by unfold useField; split <;> simp
@[simp] theorem useField_exchanges : (useField i s).exchanges = s.exchanges := by unfold useField; split <;> simp
@[simp] theorem useField_trace : (useField i s).trace = s.trace := by unfold useField; split <;> simp
end UseField

/-- R22 in one equation. -/
theorem chk_eq (i : RegField) (s : State) : chk i s = (effReg i, useField i s) := by
  unfold chk effReg useField illegalField raiseFault codeRegisterFault localReg
  by_cases h : i.toNat < 13
  · have h' : i.toNat ≤ 12 := by omega
    have h'' : ¬ 12 < i.toNat := by omega
    simp [h, h', h'']
  · have h' : ¬ i.toNat ≤ 12 := by omega
    have h'' : 12 < i.toNat := by omega
    simp [h, h', h'']

/-- R23 in one equation. -/
theorem rd_eq (i : RegField) (s : State) : rd i s = (s.reg (effReg i), useField i s) := by
  simp [rd, chk_eq]

/-- R24 in one equation. -/
theorem wr_eq (i : RegField) (v : Word) (s : State) : wr i v s = (useField i s).setReg (effReg i) v := by
  simp [wr, chk_eq]

/-- The register faults of a list of fields, raised in order. -/
theorem useField_status (fs : List RegField) (s : State) :
    (fs.foldl (fun t i => useField i t) s).halted = haltedAfter s (registerFaults fs) ∧
    (fs.foldl (fun t i => useField i t) s).exitCode = codeAfter s (registerFaults fs) := by
  induction fs generalizing s with
  | nil => simp [haltedAfter, codeAfter, registerFaults]
  | cons i rest ih =>
    obtain ⟨h1, h2⟩ := ih (useField i s)
    simp only [List.foldl_cons, h1, h2]
    by_cases hi : illegalField i <;> by_cases hh : s.halted <;>
      simp [useField, haltedAfter, codeAfter, registerFaults, haltWith, hi, hh]

/-- Form L8. -/
theorem operandL8_writesOne (d : RegField) (v : Byte) (s : State) :
    WritesOne s (operandL8 d v s) d (v.zeroExtend 32) [d] := by
  have h := useField_status [d] s
  simp only [List.foldl_cons, List.foldl_nil] at h
  refine ⟨?_, fun j hj => ?_, ?_, ?_, ?_, ?_⟩ <;>
    simp_all [operandL8, wr_eq, reg_setReg_ne, SameSurroundings]

/-- Form RR. -/
theorem operandRR_writesOne (f : Word → Word) (d a : RegField) (s : State) :
    WritesOne s (operandRR f d a s) d (f (s.reg (effReg a))) [a, d] := by
  have h := useField_status [a, d] s
  simp only [List.foldl_cons, List.foldl_nil] at h
  refine ⟨?_, fun j hj => ?_, ?_, ?_, ?_, ?_⟩ <;>
    simp_all [operandRR, wr_eq, rd_eq, reg_setReg_ne, SameSurroundings]

/-- Form R: both checks of the one field record the same code (R135). -/
theorem operandR_writesOne (f : Word → Word) (d : RegField) (s : State) :
    WritesOne s (operandR f d s) d (f (s.reg (effReg d))) [d, d] := operandRR_writesOne f d d s

/-- Form RRR. -/
theorem operandRRR_writesOne (f : Word → Word → Word) (d a b : RegField) (s : State) :
    WritesOne s (operandRRR f d a b s) d (f (s.reg (effReg a)) (s.reg (effReg b))) [a, b, d] := by
  have h := useField_status [a, b, d] s
  simp only [List.foldl_cons, List.foldl_nil] at h
  refine ⟨?_, fun j hj => ?_, ?_, ?_, ?_, ?_⟩ <;>
    simp_all [operandRRR, wr_eq, rd_eq, reg_setReg_ne, SameSurroundings]

/-- `wrap32` is the wrap of R8. -/
theorem wrap32_isWrap32 (n : Int) : IsWrap32 (wrap32 n) n := by
  unfold IsWrap32 wrap32
  have h := Int.bmod_emod (x := n) (m := 2 ^ 32)
  rw [BitVec.toInt_ofInt]
  omega

/-- R52 inside a valid byte-code. -/
theorem fetch_inside {bc : ByteCode} {p : BitVec 32} {w : RawInstr}
    (hv : bc.valid = true) (hw : bc.words[p.toNat]? = some w) : fetch bc p = w := by
  simp [fetch, hv, List.getD, hw]

/-- R52 outside: the synthetic halt. -/
theorem fetch_outside {bc : ByteCode} {p : BitVec 32}
    (h : bc.valid = false ∨ bc.count ≤ p.toNat) : fetch bc p = 0x0000 := by
  unfold fetch
  split
  · rename_i hv
    have hc : bc.words.length ≤ p.toNat := by simpa [hv, ByteCode.count] using h
    simp [List.getD, List.getElem?_eq_none hc]
  · rfl

/-- The fetched word is the stored one. -/
theorem getD_storeWordAt (ws : List RawInstr) (p : Nat) (w : RawInstr) :
    (storeWordAt ws p w).getD p 0x0000 = w := by
  induction ws, p, w using storeWordAt.induct <;> simp_all [storeWordAt]

/-- Storing a word keeps the bound on the byte-code's count unless the index itself is beyond it. -/
theorem length_storeWordAt (ws : List RawInstr) (p : Nat) (w : RawInstr) :
    (storeWordAt ws p w).length = max ws.length (p + 1) := by
  induction ws, p, w using storeWordAt.induct <;> simp_all [storeWordAt]

/-- The bound of R51 in arithmetic. -/
@[simp] theorem Memory.wf_iff (bc : ByteCode) : Memory.wf bc = true ↔ bc.words.length < 2 ^ 32 := decide_eq_true_iff

/-- The one memory operation of the engine's own side keeps `Memory.wf` (log 4); PROG binds what is well formed. -/
theorem withFetchWord_memory_wf {s : State} (nbits w : Nat) (h : Memory.wf s.byteCode = true)
    (hp : s.pos.toNat + 1 < 2 ^ 32) : Memory.wf (s.withFetchWord nbits w).byteCode = true := by
  rw [Memory.wf_iff] at *
  simp only [State.withFetchWord, length_storeWordAt]
  omega

@[simp] theorem bindByteCode_memory_wf (bc : ByteCode) (s : State) :
    Memory.wf (bindByteCode bc s).byteCode = Memory.wf bc := rfl

theorem reset_memory_wf : Memory.wf State.reset.byteCode = true := rfl

/-- Everything a transfer can do (R161). -/
theorem jumpTo_cases (t : Int) (s : State) :
    (0 ≤ t ∧ t < (s.byteCode.count : Int) ∧ jumpTo t s = { s with pos := BitVec.ofInt 32 t }) ∨
    (¬(0 ≤ t ∧ t < (s.byteCode.count : Int)) ∧ jumpTo t s = haltWith 0xFD s) := by
  unfold jumpTo raiseFault codeJumpOutOfBounds
  split
  · rename_i h; exact .inl ⟨h.1, h.2, rfl⟩
  · rename_i h; exact .inr ⟨h, rfl⟩

/-- The target of the model is the target of R160. -/
theorem jumpTarget_eq (m : JumpMode) (p : BitVec 32) (off : Word) :
    jumpTarget m p off = jumpDest m p off.toInt := by
  cases m
  · simp only [jumpTarget, jumpDest, isRelative]; omega
  · simp [jumpTarget, jumpDest, isRelative]

section InstallAnswer
variable (q : HcallRequest) (a : HcallAnswer) (rest : List HcallAnswer) (s : State)
@[simp] theorem installAnswer_x : (installAnswer q a rest s).x = a.regs := by
  unfold installAnswer; dsimp only; split <;> simp
@[simp] theorem installAnswer_pos : (installAnswer q a rest s).pos = s.pos := by
  unfold installAnswer; dsimp only; split <;> simp
@[simp] theorem installAnswer_slots : (installAnswer q a rest s).slots = s.slots := by
  unfold installAnswer; dsimp only; split <;> simp
@[simp] theorem installAnswer_params : (installAnswer q a rest s).params = s.params := by
  unfold installAnswer; dsimp only; split <;> simp
@[simp] theorem installAnswer_byteCode : (installAnswer q a rest s).byteCode = s.byteCode := by
  unfold installAnswer; dsimp only; split <;> simp
@[simp] theorem installAnswer_pending : (installAnswer q a rest s).pending = none := by
  unfold installAnswer; dsimp only; split <;> simp
@[simp] theorem installAnswer_commands : (installAnswer q a rest s).commands = s.commands := by
  unfold installAnswer; dsimp only; split <;> simp
@[simp] theorem installAnswer_answers : (installAnswer q a rest s).answers = rest := by
  unfold installAnswer; dsimp only; split <;> simp
@[simp] theorem installAnswer_replies : (installAnswer q a rest s).replies = s.replies := by
  unfold installAnswer; dsimp only; split <;> simp
@[simp] theorem installAnswer_exchanges :
    (installAnswer q a rest s).exchanges = s.exchanges ++ [⟨q, s.x, a⟩] := by
  unfold installAnswer; dsimp only; split <;> simp
@[simp] theorem installAnswer_trace : (installAnswer q a rest s).trace = s.trace := by
  unfold installAnswer; dsimp only; split <;> simp
/-- The halt request (R184). -/
theorem installAnswer_status :
    (installAnswer q a rest s).halted = haltedAfter s (if a.haltReq then [0xFB] else []) ∧
    (installAnswer q a rest s).exitCode = codeAfter s (if a.haltReq then [0xFB] else []) := by
  unfold installAnswer haltedAfter codeAfter; dsimp only
  by_cases h : a.haltReq <;> by_cases hh : s.halted <;> simp [h, hh, haltWith, codeHaltRequested]
end InstallAnswer

end Sys2Proof.Machine
end

