-- ==== Sys2Proof/Laws/HostTable.lean ====
section
/-! SUPPORT. The host-call table as a list in one form: reading a slot after writing one, and that writing keeps the
form (R185, R186; log 5). -/

namespace Sys2Proof.Machine

/-- The range of R185 and R186 in arithmetic. -/
theorem idInRange_iff (g f cap : Nat) :
    idInRange g f cap = true ↔ g ≤ 15 ∧ f ≤ 255 ∧ g * 256 + f < cap := by
  simp only [idInRange, Bool.and_eq_true, decide_eq_true_eq, and_assoc]
  rfl

theorem HostTable.wf_iff (cap : Nat) (l : List (Nat × CallbackId)) :
    HostTable.wf cap l = true ↔ l.Pairwise (fun p q => p.1 < q.1) ∧ ∀ p ∈ l, p.1 < cap := by
  simp only [HostTable.wf, Bool.and_eq_true, decide_eq_true_eq, List.all_eq_true]

/-- The wait of R183 without the Bool. -/
theorem pendingOk_iff (s : State) : pendingOk s = true ↔
    ∀ q, s.pending = some q → s.halted = false ∧ lookup q.groupId.toNat q.functionId.toNat s = some q.callback := by
  unfold pendingOk
  cases h : s.pending with
  | none => simp
  | some q => simp only [Bool.and_eq_true, Bool.not_eq_true', decide_eq_true_eq, Option.some.injEq, forall_eq']

/-- Read after write, any slot. -/
theorem slotAt_setSlot (l : List (Nat × CallbackId)) (id : Nat) (c : CallbackId) (j : Nat)
    (h : l.Pairwise (fun p q => p.1 < q.1)) :
    slotAt (setSlot l id c) j = if id = j then some c else slotAt l j := by
  induction l with
  | nil => simp [setSlot, slotAt]
  | cons p rest ih =>
    obtain ⟨k, c'⟩ := p
    have hr := ih (List.pairwise_cons.mp h).2
    unfold setSlot
    split
    · simp [slotAt]
    · split
      · rename_i h1 h2; subst h2; by_cases hj : id = j <;> simp [slotAt, hj]
      · rename_i h1 h2
        simp only [slotAt, hr]
        by_cases hk : k = j
        · have : ¬ id = j := by omega
          simp [hk, this]
        · simp [hk]

/-- A written table holds the written slot and what was there. -/
theorem mem_setSlot {l : List (Nat × CallbackId)} {id : Nat} {c : CallbackId} {p : Nat × CallbackId}
    (h : p ∈ setSlot l id c) : p = (id, c) ∨ p ∈ l := by
  induction l with
  | nil => simpa [setSlot] using h
  | cons q rest ih =>
    obtain ⟨k, c'⟩ := q
    unfold setSlot at h
    split at h
    · simpa using h
    · split at h
      · rcases List.mem_cons.mp h with h | h
        · exact .inl h
        · exact .inr (List.mem_cons_of_mem _ h)
      · rcases List.mem_cons.mp h with h | h
        · exact .inr (h ▸ List.mem_cons_self)
        · rcases ih h with h | h
          · exact .inl h
          · exact .inr (List.mem_cons_of_mem _ h)

theorem pairwise_setSlot (l : List (Nat × CallbackId)) (id : Nat) (c : CallbackId)
    (h : l.Pairwise (fun p q => p.1 < q.1)) : (setSlot l id c).Pairwise (fun p q => p.1 < q.1) := by
  induction l with
  | nil => simp [setSlot]
  | cons q rest ih =>
    obtain ⟨k, c'⟩ := q
    obtain ⟨h1, h2⟩ := List.pairwise_cons.mp h
    unfold setSlot
    split
    · rename_i hk
      refine List.pairwise_cons.mpr ⟨fun p hp => ?_, h⟩
      rcases List.mem_cons.mp hp with rfl | hp
      · exact hk
      · exact Nat.lt_trans hk (h1 p hp)
    · split
      · rename_i hk hk'; subst hk'; exact List.pairwise_cons.mpr ⟨h1, h2⟩
      · rename_i hk hk'
        refine List.pairwise_cons.mpr ⟨fun p hp => ?_, ih h2⟩
        rcases mem_setSlot hp with rfl | hp
        · show k < id; omega
        · exact h1 p hp

/-- Writing a slot that exists keeps the table's form. -/
theorem setSlot_wf {cap : Nat} {l : List (Nat × CallbackId)} (id : Nat) (c : CallbackId)
    (h : HostTable.wf cap l = true) (hid : id < cap) : HostTable.wf cap (setSlot l id c) = true := by
  simp only [HostTable.wf, Bool.and_eq_true, decide_eq_true_eq, List.all_eq_true] at *
  refine ⟨pairwise_setSlot l id c h.1, fun p hp => ?_⟩
  rcases mem_setSlot hp with rfl | hp
  · exact hid
  · exact h.2 p hp

theorem HostTable.wf_pairwise {cap : Nat} {l : List (Nat × CallbackId)} (h : HostTable.wf cap l = true) :
    l.Pairwise (fun p q => p.1 < q.1) := by
  simp only [HostTable.wf, Bool.and_eq_true, decide_eq_true_eq] at h
  exact h.1

/-- In the one form, a slot reads as what the list holds for it. -/
theorem slotAt_eq_some_iff {l : List (Nat × CallbackId)} (h : l.Pairwise (fun p q => p.1 < q.1))
    (id : Nat) (c : CallbackId) : slotAt l id = some c ↔ (id, c) ∈ l := by
  induction l with
  | nil => simp [slotAt]
  | cons q rest ih =>
    obtain ⟨k, c'⟩ := q
    obtain ⟨h1, h2⟩ := List.pairwise_cons.mp h
    simp only [slotAt, List.mem_cons, Prod.mk.injEq]
    by_cases hk : k = id
    · subst hk
      have : (k, c) ∉ rest := fun hm => by simpa using h1 _ hm
      simp [this, eq_comm]
    · simp [hk, ih h2, Ne.symm hk]

/-- An occupied slot of a table in its form is in range for the ids of a CallHost (R180, R185). -/
theorem lookup_eq_some_iff {s : State} (h : HostTable.wf s.params.hcCapacity s.slots = true)
    (g : BitVec 4) (f : BitVec 8) (c : CallbackId) :
    lookup g.toNat f.toNat s = some c ↔ (packedId g.toNat f.toNat, c) ∈ s.slots := by
  rw [← slotAt_eq_some_iff (HostTable.wf_pairwise h)]
  unfold lookup
  cases hs : slotAt s.slots (packedId g.toNat f.toNat) with
  | none => simp
  | some c' =>
    have hm := (slotAt_eq_some_iff (HostTable.wf_pairwise h) _ _).mp hs
    have hlt : packedId g.toNat f.toNat < s.params.hcCapacity := by
      simp only [HostTable.wf, Bool.and_eq_true, List.all_eq_true, decide_eq_true_eq] at h
      exact h.2 _ hm
    have hg : g.toNat ≤ 15 := by have := g.isLt; omega
    have hf : f.toNat ≤ 255 := by have := f.isLt; omega
    simp [idInRange, hlt, hg, hf]

/-- Everything a registration can do (R186). -/
theorem registerCallback_cases (c : CallbackId) (g f : Nat) (s : State) :
    (idInRange g f s.params.hcCapacity = false ∧ registerCallback c g f s = (.outOfRange, s)) ∨
    (idInRange g f s.params.hcCapacity = true ∧ slotAt s.slots (packedId g f) = none ∧
      registerCallback c g f s = (.ok, { s with slots := setSlot s.slots (packedId g f) c })) ∨
    (∃ c', idInRange g f s.params.hcCapacity = true ∧ slotAt s.slots (packedId g f) = some c' ∧
      registerCallback c g f s = (.overwritten, { s with slots := setSlot s.slots (packedId g f) c })) := by
  unfold registerCallback
  cases hr : idInRange g f s.params.hcCapacity with
  | false => simp
  | true =>
    cases hs : slotAt s.slots (packedId g f) with
    | none => simp
    | some c' => simp

end Sys2Proof.Machine
end

