-- ==== Sys2Proof/Laws/Exec.lean ====
section
/-! SUPPORT. What any instruction can do, said once for `exec` and once for `step`: the inversion lemmas that later
proofs cite instead of unfolding either. -/

namespace Sys2Proof.Machine

/-- What no instruction writes (R30, R33, R62, R188), and that the status only goes from running to halted with the
first code recorded (R32, R203). -/
structure ExecFrame (s t : State) : Prop where
  slots    : t.slots = s.slots
  params   : t.params = s.params
  byteCode : t.byteCode = s.byteCode
  commands : t.commands = s.commands
  replies  : t.replies = s.replies
  trace    : t.trace = s.trace
  status   : (t.halted = s.halted ∧ t.exitCode = s.exitCode) ∨ (s.halted = false ∧ t.halted = true)

theorem ExecFrame.refl (s : State) : ExecFrame s s := ⟨rfl, rfl, rfl, rfl, rfl, rfl, .inl ⟨rfl, rfl⟩⟩

theorem ExecFrame.trans {s t u : State} (h : ExecFrame s t) (k : ExecFrame t u) : ExecFrame s u where
  slots := k.slots.trans h.slots
  params := k.params.trans h.params
  byteCode := k.byteCode.trans h.byteCode
  commands := k.commands.trans h.commands
  replies := k.replies.trans h.replies
  trace := k.trace.trans h.trace
  status := by
    rcases h.status with ⟨h1, h2⟩ | ⟨h1, h2⟩ <;> rcases k.status with ⟨k1, k2⟩ | ⟨k1, k2⟩ <;> simp_all

theorem haltWith_execFrame (c : Byte) (s : State) : ExecFrame s (haltWith c s) where
  slots := by simp
  params := by simp
  byteCode := by simp
  commands := by simp
  replies := by simp
  trace := by simp
  status := by cases h : s.halted <;> simp [haltWith_exitCode, h]

theorem WritesOne.execFrame {s t : State} {d : RegField} {v : Word} {fs : List RegField}
    (h : WritesOne s t d v fs) : ExecFrame s t := by
  obtain ⟨-, -, -, hh, hc, h1, h2, h3, -, h5, -, h7, -, h9⟩ := h
  refine ⟨h1, h2, h3, h5, h7, h9, ?_⟩
  rw [hh, hc]
  cases hs : s.halted <;> cases hf : registerFaults fs <;> simp [haltedAfter, codeAfter, hs]

theorem useField_execFrame (i : RegField) (s : State) : ExecFrame s (useField i s) := by
  unfold useField
  split
  · exact haltWith_execFrame _ s
  · exact .refl s

theorem jumpTo_execFrame (t : Int) (s : State) : ExecFrame s (jumpTo t s) := by
  rcases jumpTo_cases t s with ⟨-, -, h⟩ | ⟨-, h⟩ <;> rw [h]
  · exact ⟨rfl, rfl, rfl, rfl, rfl, rfl, .inl ⟨rfl, rfl⟩⟩
  · exact haltWith_execFrame _ s

theorem hcall_execFrame (q : HcallRequest) (s : State) : ExecFrame s (hcall q s) := by
  unfold hcall
  split
  · exact ⟨rfl, rfl, rfl, rfl, rfl, rfl, .inl ⟨rfl, rfl⟩⟩
  · rename_i a rest _
    refine ⟨by simp, by simp, by simp, by simp, by simp, by simp, ?_⟩
    rw [(installAnswer_status q a rest s).1, (installAnswer_status q a rest s).2]
    cases hs : s.halted <;> cases ha : a.haltReq <;> simp [haltedAfter, codeAfter, hs]

/-- The frame that every instruction keeps. -/
theorem exec_execFrame {i : Instr} {s t : State} (h : exec i s = .next t) : ExecFrame s t := by
  cases i <;> simp only [exec] at h
  case halt => cases h; exact haltWith_execFrame _ s
  case unassigned14 => cases h; exact haltWith_execFrame _ s
  case unassigned15 => cases h; exact haltWith_execFrame _ s
  case set => cases h; exact (operandL8_writesOne _ _ s).execFrame
  case cpy => cases h; exact (operandRR_writesOne _ _ _ s).execFrame
  case add => cases h; exact (operandRRR_writesOne _ _ _ _ s).execFrame
  case sub => cases h; exact (operandRRR_writesOne _ _ _ _ s).execFrame
  case mul => cases h; exact (operandRRR_writesOne _ _ _ _ s).execFrame
  case inv => cases h; exact (operandR_writesOne _ _ s).execFrame
  case eql => cases h; exact (operandRRR_writesOne _ _ _ _ s).execFrame
  case neq => cases h; exact (operandRRR_writesOne _ _ _ _ s).execFrame
  case gre => cases h; exact (operandRRR_writesOne _ _ _ _ s).execFrame
  case les => cases h; exact (operandRRR_writesOne _ _ _ _ s).execFrame
  case div d a b =>
    simp only [execDiv, rd_eq] at h
    split at h <;> cases h
    · exact (useField_execFrame b s).trans (haltWith_execFrame _ _)
    · exact (useField_execFrame b s).trans (operandRR_writesOne _ _ _ _).execFrame
  case jmp d u m =>
    simp only [execJmp, rd_eq] at h
    split at h <;> cases h
    · exact useField_execFrame d s
    · exact (useField_execFrame d s).trans (jumpTo_execFrame _ _)
  case hcl g f =>
    simp only [execHcl] at h
    split at h
    · cases h; exact hcall_execFrame _ s
    · split at h <;> cases h
      · exact haltWith_execFrame _ s
      · exact .refl s

/-- What one step can be: the host's move on a halted engine, the end of a wait, or one instruction. -/
theorem step_cases {s t : State} (h : step s = .next t) :
    (s.halted = true ∧ t = hostMove s) ∨
    (∃ q, s.halted = false ∧ s.pending = some q ∧ t = resume q s) ∨
    (Running s ∧ ∃ u, exec (decode (fetch s.byteCode s.pos)) (advance s) = .next u ∧
      t = retire (unpack (fetch s.byteCode s.pos)) u) := by
  unfold step at h
  split at h
  · rename_i hh; cases h; exact .inl ⟨hh, rfl⟩
  · rename_i hh
    have hf : s.halted = false := by simpa using hh
    split at h
    · rename_i q hq; cases h; exact .inr (.inl ⟨q, hf, hq, rfl⟩)
    · rename_i hq
      unfold runInstr at h
      split at h
      · rename_i u hu; cases h; exact .inr (.inr ⟨⟨hf, hq⟩, u, hu, rfl⟩)
      · cases h
      · cases h

end Sys2Proof.Machine
end

