-- ==== Sys2Proof/Laws/PerInstr.lean ====
section
/-! SUPPORT. Facts about every instruction as syntax, one lemma per constructor. -/

namespace Sys2Proof.Laws.OpcodeField

/-- The encoding of an instruction belongs to its own row of the opcode table: the bits of the row's mask are the
row's match (30_encoding R76, R83). -/
def Statement (i : Instr) : Prop :=
  ∃ r ∈ opcodeTable, r.mnemonic = i.mnemonic ∧ (encode i).extractLsb' 12 4 = r.bits.extractLsb' 12 4

/-- The opcode is the high field of a packed word (R71, R75). -/
theorem opcode_pack (d : DecodedInstruction) : (pack d).extractLsb' 12 4 = d.opcode := by
  unfold pack
  ext i hi
  simp
  grind

theorem of_row {i : Instr} (r : OpcodeRow) (hr : r ∈ opcodeTable) (hm : r.mnemonic = i.mnemonic)
    (ho : i.fields.opcode = r.bits.extractLsb' 12 4) : Statement i :=
  ⟨r, hr, hm, by rw [encode, opcode_pack, ho]⟩

theorem halt (d : RegField) (v : Byte) : Statement (.halt d v) :=
  of_row ⟨"halt", 0x0000, 0xF000⟩ (by decide) rfl rfl
theorem set (d : RegField) (v : Byte) : Statement (.set d v) :=
  of_row ⟨"set", 0x1000, 0xF000⟩ (by decide) rfl rfl
theorem cpy (d a b : RegField) : Statement (.cpy d a b) :=
  of_row ⟨"cpy", 0x2000, 0xF000⟩ (by decide) rfl rfl
theorem add (d a b : RegField) : Statement (.add d a b) :=
  of_row ⟨"add", 0x3000, 0xF000⟩ (by decide) rfl rfl
theorem sub (d a b : RegField) : Statement (.sub d a b) :=
  of_row ⟨"sub", 0x4000, 0xF000⟩ (by decide) rfl rfl
theorem mul (d a b : RegField) : Statement (.mul d a b) :=
  of_row ⟨"mul", 0x5000, 0xF000⟩ (by decide) rfl rfl
theorem div (d a b : RegField) : Statement (.div d a b) :=
  of_row ⟨"div", 0x6000, 0xF000⟩ (by decide) rfl rfl
theorem inv (d : RegField) (v : Byte) : Statement (.inv d v) :=
  of_row ⟨"inv", 0x7000, 0xF000⟩ (by decide) rfl rfl
theorem eql (d a b : RegField) : Statement (.eql d a b) :=
  of_row ⟨"eql", 0x8000, 0xF000⟩ (by decide) rfl rfl
theorem neq (d a b : RegField) : Statement (.neq d a b) :=
  of_row ⟨"neq", 0x9000, 0xF000⟩ (by decide) rfl rfl
theorem gre (d a b : RegField) : Statement (.gre d a b) :=
  of_row ⟨"gre", 0xA000, 0xF000⟩ (by decide) rfl rfl
theorem les (d a b : RegField) : Statement (.les d a b) :=
  of_row ⟨"les", 0xB000, 0xF000⟩ (by decide) rfl rfl
theorem jmp (d : RegField) (u : BitVec 7) (m : JumpMode) : Statement (.jmp d u m) :=
  of_row ⟨"jmp", 0xC000, 0xF000⟩ (by decide) rfl rfl
theorem hcl (g : BitVec 4) (f : BitVec 8) : Statement (.hcl g f) :=
  of_row ⟨"hcl", 0xD000, 0xF000⟩ (by decide) rfl rfl
theorem unassigned14 (d : RegField) (v : Byte) : Statement (.unassigned14 d v) :=
  of_row ⟨"unassigned_14", 0xE000, 0xF000⟩ (by decide) rfl rfl
theorem unassigned15 (d : RegField) (v : Byte) : Statement (.unassigned15 d v) :=
  of_row ⟨"unassigned_15", 0xF000, 0xF000⟩ (by decide) rfl rfl

end Sys2Proof.Laws.OpcodeField
end

