-- ==== Sys2Proof/Tests/Slice0.lean ====
section
/-! SUPPORT. Tests of the model. Expected results are the spec's own: the worked examples and vectors of
95_test_vectors (V-E, V-D, V-M, V-A, V-C, V-J, V-R, V-H, V-F) and the words of 30_encoding R76, written out by hand.
Then one witness for each statement that has hypotheses: a concrete state and operands that meet all of them. -/

namespace Sys2Proof.Tests

open Sys2Proof Sys2Proof.Machine

/-- An engine of capacity 32, running, with a valid byte-code. -/
def base (words : List RawInstr) : State :=
  { State.construct ⟨32, false, false⟩ ⟨true, words⟩ with halted := false }

/-- The engine with registers set. -/
def withRegs (s : State) (l : List (Fin 13 × Word)) : State := l.foldl (fun t p => t.setReg p.1 p.2) s

def after (o : Host.Outcome State Fault Refusal) : Option State :=
  match o with
  | .next t => some t
  | .fault _ => none
  | .refused _ => none

/-- A register, `halted` and the exit code after an instruction. -/
def seen (i : Instr) (s : State) (r : Fin 13) : Option (Word × Bool × Byte) :=
  (after (exec i s)).map (fun t => (t.reg r, t.halted, t.exitCode))

/-- `pos`, `halted` and the exit code after an instruction. -/
def seenPos (i : Instr) (s : State) : Option (BitVec 32 × Bool × Byte) :=
  (after (exec i s)).map (fun t => (t.pos, t.halted, t.exitCode))

/-- A state whose registers 1 and 2 hold the two operands of V-A and V-C. -/
def ab (a b : Int) : State := withRegs (base []) [(1, wrap32 a), (2, wrap32 b)]

/-- The jump vectors V-J: ten words, the jump at index 4, so `pos = 5`; the offset in register 6. -/
def jumpState (off : Int) : State :=
  { withRegs (base (List.replicate 10 0)) [(6, wrap32 off)] with pos := 5 }

-- ==== well-formedness: one ill-formed term for each check ====

theorem test_fieldsFit_opcode : DecodedInstruction.ofNats? 16 0 0 = none := by decide
theorem test_fieldsFit_dest : DecodedInstruction.ofNats? 0 16 0 = none := by decide
theorem test_fieldsFit_value : DecodedInstruction.ofNats? 0 0 256 = none := by decide
theorem test_fieldsFit_accepts : DecodedInstruction.ofNats? 15 15 255 = some ⟨15, 15, 255⟩ := by decide
theorem test_params_capacity_zero : Params.wf ⟨0, false, false⟩ = false := by decide
theorem test_params_capacity_big : Params.wf ⟨4097, false, false⟩ = false := by decide
theorem test_params_capacity_ends :
    Params.wf ⟨1, false, false⟩ = true ∧ Params.wf ⟨4096, true, true⟩ = true := by decide
theorem test_memory_too_long : Memory.wf ⟨true, List.replicate (2 ^ 32) 0⟩ = false := by
  rw [Memory.wf, ByteCode.count, List.length_replicate]; decide
theorem test_hostTable_order : HostTable.wf 32 [(5, 0), (5, 1)] = false := by decide
theorem test_hostTable_range : HostTable.wf 32 [(32, 0)] = false := by decide
theorem test_fileParams_magic :
    FileParams.wf ⟨[1, 2], 1, false⟩ = false ∧ FileParams.wf ⟨[1, 2, 3, 4, 5], 1, false⟩ = false ∧
    FileParams.wf ⟨[1, 2, 3], 1, false⟩ = true := by decide

-- ==== decoding: words written out from the encodings of R76 and the programs of 95_test_vectors ====

theorem test_decode_halt : decode 0b0000_1111_00000111#16 = .halt 15 7 := by decide
theorem test_decode_set : decode 0b0001_1100_11111111#16 = .set 12 255 := by decide
theorem test_decode_cpy : decode 0b0010_0000_0001_0011#16 = .cpy 0 1 3 := by decide
theorem test_decode_add : decode 0b0011_0010_0000_0001#16 = .add 2 0 1 := by decide
theorem test_decode_sub : decode 0b0100_0000_0000_0001#16 = .sub 0 0 1 := by decide
theorem test_decode_mul : decode 0b0101_0110_0101_0111#16 = .mul 6 5 7 := by decide
theorem test_decode_div : decode 0b0110_1101_1110_0010#16 = .div 13 14 2 := by decide
theorem test_decode_inv : decode 0b0111_0111_00000000#16 = .inv 7 0 := by decide
theorem test_decode_eql : decode 0b1000_0000_0001_0010#16 = .eql 0 1 2 := by decide
theorem test_decode_neq : decode 0b1001_0000_0001_0010#16 = .neq 0 1 2 := by decide
theorem test_decode_gre : decode 0b1010_0101_0011_0010#16 = .gre 5 3 2 := by decide
theorem test_decode_les : decode 0b1011_0000_0001_0010#16 = .les 0 1 2 := by decide
theorem test_decode_jmp_relative : decode 0b1100_0110_0000001_0#16 = .jmp 6 1 .relative := by decide
theorem test_decode_jmp_absolute : decode 0b1100_0101_0000000_1#16 = .jmp 5 0 .absolute := by decide
theorem test_decode_hcl : decode 0b1101_0001_00000010#16 = .hcl 1 2 := by decide
theorem test_decode_unassigned14 : decode 0b1110_0101_11111011#16 = .unassigned14 5 0xFB := by decide
theorem test_decode_unassigned15 : decode 0b1111_1111_11111111#16 = .unassigned15 15 255 := by decide
/-- V-E2, V-E3: raw -1 and -32768. -/
theorem test_unpack_negative :
    unpack (BitVec.ofInt 16 (-1)) = ⟨15, 15, 255⟩ ∧ unpack (BitVec.ofInt 16 (-32768)) = ⟨8, 0, 0⟩ := by decide
/-- V-E5, V-E6: packed words as signed integers. -/
theorem test_pack_negative :
    (pack ⟨13, 15, 255⟩).toInt = -8193 ∧ (pack ⟨10, 5, pairValue 3 2⟩).toInt = -23246 := by decide
theorem test_decodeTableWord : decodeTableWord 16 0x3201 = some (.add 2 0 1) := by decide
/-- P1 as assembler text. -/
theorem test_assemble_P1 :
    assemble [.set 0 3, .set 1 7, .add 2 0 1, .halt 0] = [0x1003, 0x1107, 0x3201, 0x0000] := by decide
/-- A literal other than 0 is stored as 1 (R90). -/
theorem test_assemble_jmp : AsmLine.word (.jmp 5 2) = 0xC501 ∧ AsmLine.word (.jmp 6 0) = 0xC600 := by decide

-- ==== the instructions, by the vectors of 95_test_vectors ====

/-- V-D1, V-D3 -/
theorem test_halt : seenPos (.halt 15 7) (base []) = some (0, true, 7) := by decide
theorem test_halt_reserved : seenPos (.halt 0 252) (base []) = some (0, true, 0xFC) := by decide
/-- V-D4 -/
theorem test_unassigned14 : seenPos (.unassigned14 5 0xFB) (base []) = some (0, true, 0xFB) := by decide
/-- V-D5 -/
theorem test_unassigned15 : seenPos (.unassigned15 15 255) (base []) = some (0, true, 255) := by decide
/-- V-M2 -/
theorem test_set_local : seen (.set 12 255) (base []) 12 = some (255, false, 0) := by decide
/-- V-M3 -/
theorem test_set_illegal : seen (.set 13 4) (base []) 12 = some (4, true, 0xFE) := by decide
/-- V-M5 -/
theorem test_cpy_argB_unchecked :
    seen (.cpy 0 1 15) (withRegs (base []) [(1, 7)]) 0 = some (7, false, 0) := by decide
/-- V-M6 -/
theorem test_cpy_illegal_source :
    seen (.cpy 0 14 0) (withRegs (base []) [(12, 9)]) 0 = some (9, true, 0xFE) := by decide
/-- V-A1 -/
theorem test_add_wraps : seen (.add 0 1 2) (ab 2147483647 1) 0 = some (wrap32 (-2147483648), false, 0) := by decide
/-- V-R1 -/
theorem test_add_aliases_local :
    seen (.add 12 13 0) (withRegs (base []) [(0, 7), (12, 5)]) 12 = some (12, true, 0xFE) := by decide
/-- V-A3 -/
theorem test_sub_wraps : seen (.sub 0 1 2) (ab (-2147483648) 1) 0 = some (2147483647, false, 0) := by decide
/-- R132's example -/
theorem test_sub_order : seen (.sub 0 0 1) (withRegs (base []) [(0, 5), (1, 1)]) 0 = some (4, false, 0) := by decide
/-- V-A5 -/
theorem test_mul_low : seen (.mul 0 1 2) (ab 65536 65536) 0 = some (0, false, 0) := by decide
/-- V-A7 -/
theorem test_mul_wraps : seen (.mul 0 1 2) (ab 2147483647 2) 0 = some (wrap32 (-2), false, 0) := by decide
/-- The sign table of R137. -/
theorem test_div_signs :
    seen (.div 0 1 2) (ab (-7) 2) 0 = some (wrap32 (-3), false, 0) ∧
    seen (.div 0 1 2) (ab 7 (-2)) 0 = some (wrap32 (-3), false, 0) ∧
    seen (.div 0 1 2) (ab (-7) (-2)) 0 = some (3, false, 0) ∧
    seen (.div 0 1 2) (ab (-1) 2) 0 = some (0, false, 0) ∧
    seen (.div 0 1 2) (ab (-2147483648) (-1)) 0 = some (wrap32 (-2147483648), false, 0) := by decide
/-- V-A15, V-R2, V-R3, V-R4: the priorities of R206. -/
theorem test_div_faults :
    seen (.div 0 1 2) (ab 5 0) 0 = some (0, true, 0xFC) ∧
    seen (.div 0 1 14) (withRegs (base []) [(1, 9)]) 0 = some (0, true, 0xFE) ∧
    seen (.div 13 14 2) (withRegs (base []) [(12, 3)]) 12 = some (3, true, 0xFC) ∧
    seen (.div 13 1 2) (withRegs (base []) [(1, 10), (2, 3), (12, 99)]) 12 = some (3, true, 0xFE) := by decide
/-- V-A19, V-A20 -/
theorem test_inv_edges :
    seen (.inv 1 0) (ab (-2147483648) 0) 1 = some (wrap32 (-2147483648), false, 0) ∧
    seen (.inv 1 0) (ab (-2147483647) 0) 1 = some (2147483647, false, 0) := by decide
/-- V-R5 -/
theorem test_inv_illegal : seen (.inv 15 0) (withRegs (base []) [(12, 8)]) 12 = some (wrap32 (-8), true, 0xFE) := by decide
/-- V-C2, V-C3 -/
theorem test_eql :
    seen (.eql 0 1 2) (ab (-1) (-1)) 0 = some (1, false, 0) ∧ seen (.eql 0 1 2) (ab 1 2) 0 = some (0, false, 0) := by decide
/-- V-C4, V-C5 -/
theorem test_neq :
    seen (.neq 0 1 2) (ab 4 5) 0 = some (1, false, 0) ∧ seen (.neq 0 1 2) (ab 4 4) 0 = some (0, false, 0) := by decide
/-- V-C6, V-C7, V-C8 -/
theorem test_gre :
    seen (.gre 0 1 2) (ab (-1) 1) 0 = some (0, false, 0) ∧
    seen (.gre 0 1 2) (ab 2147483647 (-2147483648)) 0 = some (1, false, 0) ∧
    seen (.gre 0 1 2) (ab 3 3) 0 = some (0, false, 0) := by decide
/-- V-C9, V-C10, V-C11 -/
theorem test_les :
    seen (.les 0 1 2) (ab (-2147483648) 0) 0 = some (1, false, 0) ∧
    seen (.les 0 1 2) (ab 3 3) 0 = some (0, false, 0) ∧
    seen (.les 0 1 2) (ab (-3) 2) 0 = some (1, false, 0) := by decide
/-- V-J1 to V-J8, relative. -/
theorem test_jmp_relative :
    seenPos (.jmp 6 0 .relative) (jumpState 0) = some (5, false, 0) ∧
    seenPos (.jmp 6 0 .relative) (jumpState (-1)) = some (3, false, 0) ∧
    seenPos (.jmp 6 0 .relative) (jumpState (-4)) = some (0, false, 0) ∧
    seenPos (.jmp 6 0 .relative) (jumpState (-5)) = some (5, true, 0xFD) ∧
    seenPos (.jmp 6 0 .relative) (jumpState 5) = some (9, false, 0) ∧
    seenPos (.jmp 6 0 .relative) (jumpState 6) = some (5, true, 0xFD) ∧
    seenPos (.jmp 6 0 .relative) (jumpState 2147483647) = some (5, true, 0xFD) := by decide
/-- V-J9 to V-J13, absolute, and V-J15, the register fault first. -/
theorem test_jmp_absolute :
    seenPos (.jmp 6 0 .absolute) (jumpState 0) = some (0, false, 0) ∧
    seenPos (.jmp 6 0 .absolute) (jumpState 9) = some (9, false, 0) ∧
    seenPos (.jmp 6 0 .absolute) (jumpState 10) = some (5, true, 0xFD) ∧
    seenPos (.jmp 6 0 .absolute) (jumpState (-1)) = some (5, true, 0xFD) ∧
    seenPos (.jmp 13 0 .relative) (withRegs (jumpState 0) [(12, 100)]) = some (5, true, 0xFE) := by decide

/-- P5's engine: capacity 4096, two callbacks, and the answers that `dbl` and `stop` give. -/
def hostState : State :=
  { withRegs (base []) [(12, 21)] with
    params := ⟨4096, false, false⟩
    slots := [(258, 7), (259, 8)]
    answers := [⟨RegFile.zero.set 12 42, false⟩, ⟨RegFile.zero.set 12 42, true⟩] }

/-- P5, first call: the answer is installed and the run goes on; V-H10: the halt request. -/
theorem test_hcl_answer :
    seen (.hcl 1 2) hostState 12 = some (42, false, 0) ∧
    seen (.hcl 1 3) { hostState with answers := hostState.answers.drop 1 } 12 = some (42, true, 0xFB) := by decide
/-- V-H8, V-H9, and R107: an unanswered call waits. -/
theorem test_hcl_miss_and_wait :
    after (exec (.hcl 3 7) (base [])) = some (base []) ∧
    seen (.hcl 3 7) { base [] with params := ⟨32, true, false⟩ } 0 = some (0, true, 0xFF) ∧
    (after (exec (.hcl 1 2) { hostState with answers := [] })).map State.pending = some (some ⟨7, 1, 2⟩) := by decide

-- ==== steps ====

/-- V-D1: a step is fetch, advance, execute; the end of the run returns the exit code. -/
theorem test_step_halt :
    (after (step (base [0x0007]))).map (fun t => (t.pos, t.exitCode, t.replies)) = some (1, 7, [.exited 7]) := by decide
/-- V-D7, V-D8: an empty and an invalid byte-code yield the synthetic halt. -/
theorem test_step_synthetic :
    (after (step (base []))).map (fun t => (t.pos, t.halted, t.exitCode)) = some (1, true, 0) ∧
    (after (step { base [0x1005] with byteCode := ⟨false, [0x1005]⟩ })).map (fun t => (t.reg 0, t.halted, t.exitCode))
      = some (0, true, 0) := by decide
/-- R218: the event has the instruction and the registers it left. -/
theorem test_step_trace :
    (after (step { base [0x1003] with params := ⟨32, false, true⟩ })).map State.trace
      = some [⟨⟨1, 0, 3⟩, RegFile.zero.set 0 3⟩] := by decide
/-- V-H1, V-H2, V-H4, V-H5, V-H6, V-H7 -/
theorem test_register :
    let cap32 : State := base []
    (registerCallback 1 0 5 cap32).1 = .ok ∧
    (registerCallback 2 0 5 (registerCallback 1 0 5 cap32).2).1 = .overwritten ∧
    (registerCallback 2 0 5 (registerCallback 1 0 5 cap32).2).2.slots = [(5, 2)] ∧
    (registerCallback 1 0 32 cap32).1 = .outOfRange ∧
    (registerCallback 1 1 0 cap32).1 = .outOfRange ∧
    (registerCallback 1 16 0 cap32).1 = .outOfRange ∧
    (registerCallback 1 15 255 { cap32 with params := ⟨4096, false, false⟩ }).1 = .ok := by decide
/-- R232: `run()` on a halted engine with registers left by an earlier run. -/
theorem test_run_start :
    (after (step (({ withRegs (base []) [(3, 9)] with halted := true, exitCode := 0xFC, pos := 8 } : State).post .run))).map
      (fun t => (t.reg 3, t.pos, t.halted, t.exitCode)) = some (0, 0, false, 0) := by decide
/-- The first instruction after `State.reset` is the word that is placed; a CallHost there misses (R231). -/
theorem test_withFetchWord :
    (after (step (State.reset.withFetchWord 16 0x1003))).map (fun t => (t.reg 0, t.pos)) = some (3, 1) ∧
    (after (step (State.reset.withFetchWord 16 0xDFFF))).map (fun t => (t.halted, t.pos)) = some (false, 1) := by decide

-- ==== the file format ====

/-- V-F1 -/
theorem test_file_write :
    writeFile ⟨[0x50, 0x56, 0x4D], 1, false⟩ [0x1003, 0x1107, 0x3201, 0x0000]
      = [0x50, 0x56, 0x4D, 1, 4, 0, 0, 0, 0x03, 0x10, 0x07, 0x11, 0x01, 0x32, 0, 0] := by decide
/-- V-F2, V-F3 -/
theorem test_file_reject :
    readFile ⟨[0x50, 0x56, 0x4D], 1, false⟩ [0x51, 0x56, 0x4D, 1, 0, 0, 0, 0] = .error .badMagic ∧
    readFile ⟨[0x50, 0x56, 0x4D], 1, false⟩ [0x50, 0x56, 0x4D, 2, 0, 0, 0, 0] = .error .badVersion := ⟨rfl, rfl⟩

-- ==== witnesses: each meets every hypothesis of the statement it is named after ====

theorem witness_CheckedReadFallsBackToLocal : (12#4).toNat ≤ 12 ∧ 13 ≤ (13#4).toNat ∧ 13 ≤ (15#4).toNat := by decide
theorem witness_HaltRoutineRecordsFirstCode :
    (base []).halted = false ∧ (State.construct ⟨32, false, false⟩ ⟨true, []⟩).halted = true := by decide
theorem witness_DivWritesTruncatedQuotient : (ab 7 (-1)).reg (effReg 2) ≠ 0 := by decide
theorem witness_DivByZeroHaltsUnwritten :
    (ab 5 0).reg (effReg 2) = 0 ∧ (ab 5 0).reg (effReg 14) = 0 := by decide
/-- Both ends of the range, one beyond each, and the relative no-op. -/
theorem witness_JumpTransfersOrFaults :
    Memory.wf (jumpState 0).byteCode = true ∧ (jumpState 0).byteCode.count = 10 ∧
    jumpDest .absolute 5 0 = 0 ∧ jumpDest .relative 5 5 = 9 ∧ jumpDest .absolute 5 10 = 10 ∧
    jumpDest .relative 5 (-5) = -1 ∧ ((jumpState 0).reg (effReg 6)).toInt = 0 := by decide
theorem witness_CallHostInstallsTheAnswer :
    HostTable.wf hostState.params.hcCapacity hostState.slots = true ∧
    ((1#4).toNat * 256 + (3#8).toNat, 8) ∈ hostState.slots ∧
    hostState.answers = ⟨RegFile.zero.set 12 42, false⟩ :: [⟨RegFile.zero.set 12 42, true⟩] := by decide
theorem witness_CallHostWaitsForTheAnswer :
    HostTable.wf 4096 [(0, 1), (4095, 2)] = true ∧ ((15#4).toNat * 256 + (255#8).toNat, 2) ∈ [(0, 1), (4095, 2)] ∧
    (base []).answers = [] := by decide
theorem witness_CallHostMissIsFaultOnlyWhenStrict :
    HostTable.wf (base []).params.hcCapacity (base []).slots = true ∧
    (∀ c, ((15#4).toNat * 256 + (255#8).toNat, c) ∉ (base []).slots) ∧
    (base []).params.strictHostcall = false ∧
    ({ base [] with params := ⟨32, true, false⟩ } : State).params.strictHostcall = true := by
  refine ⟨by decide, fun c h => ?_, by decide, by decide⟩
  cases h
theorem witness_StepRunsTheDecodedInstruction :
    (base [0x1003]).halted = false ∧ (base [0x1003]).pending = none ∧ (base [0x1003]).byteCode.valid = true ∧
    (base [0x1003]).byteCode.words[(base [0x1003]).pos.toNat]? = some 0x1003 := by decide
theorem witness_RunningOffTheEndExitsZero :
    (Running (base []) ∧ (base []).byteCode.count ≤ (base []).pos.toNat) ∧
    (Running { base [0x1005] with byteCode := ⟨false, [0x1005]⟩ } ∧
      ({ base [0x1005] with byteCode := ⟨false, [0x1005]⟩ } : State).byteCode.valid = false) :=
  ⟨⟨⟨rfl, rfl⟩, by decide⟩, ⟨⟨rfl, rfl⟩, rfl⟩⟩
theorem witness_OnlyJumpRedirectsPos :
    Memory.wf (base [0xC601]).byteCode = true ∧ Running (base [0xC601]) ∧ ∃ t, step (base [0xC601]) = .next t :=
  ⟨rfl, ⟨rfl, rfl⟩, _, rfl⟩
theorem witness_RunKeepsProgramAndTable :
    (base [0x1003]).halted = false ∧ ∃ t, step (base [0x1003]) = .next t := ⟨rfl, _, rfl⟩
theorem witness_ExitCodeChangesOnlyWithHalt :
    (base [0x1003]).halted = false ∧ ∃ t, step (base [0x1003]) = .next t ∧ t.halted = false := ⟨rfl, _, rfl, rfl⟩
theorem witness_EveryHaltHasACause :
    (Running (base [0x0007]) ∧ ∃ t, step (base [0x0007]) = .next t ∧ t.halted = true) ∧
    (Running (base [0x1D04]) ∧ ∃ t, step (base [0x1D04]) = .next t ∧ t.halted = true) :=
  ⟨⟨⟨rfl, rfl⟩, _, rfl, rfl⟩, ⟨⟨rfl, rfl⟩, _, rfl, rfl⟩⟩
theorem witness_RunEndReturnsExitCode :
    ((base [0x0007]).halted = false ∧ ∃ t, step (base [0x0007]) = .next t ∧ t.halted = true) ∧
    ((base [0x1003]).halted = false ∧ ∃ t, step (base [0x1003]) = .next t ∧ t.halted = false) :=
  ⟨⟨rfl, _, rfl, rfl⟩, ⟨rfl, _, rfl, rfl⟩⟩
theorem witness_OneTraceEventPerInstruction :
    Running { base [0x1003] with params := ⟨32, false, true⟩ } ∧
    ∃ t, step { base [0x1003] with params := ⟨32, false, true⟩ } = .next t := ⟨⟨rfl, rfl⟩, _, rfl⟩
theorem witness_WaitEndsOnlyWithTheAnswer :
    let s : State := { hostState with pending := some ⟨7, 1, 2⟩ }
    s.halted = false ∧ s.pending = some ⟨7, 1, 2⟩ ∧ ({ s with answers := [] } : State).answers = [] ∧
    s.answers = ⟨RegFile.zero.set 12 42, false⟩ :: [⟨RegFile.zero.set 12 42, true⟩] := by decide
/-- A halted engine with requests posted. -/
def idle (l : List HostCmd) : State := { State.construct ⟨32, false, false⟩ ⟨true, [0x0007]⟩ with commands := l }
theorem witness_RunStartClears : (idle [.run]).halted = true ∧ (idle [.run]).commands = .run :: [] := ⟨rfl, rfl⟩
theorem witness_BindingResetsPosOnly :
    (idle [.bind ⟨true, [0x1003]⟩]).halted = true ∧
    (idle [.bind ⟨true, [0x1003]⟩]).commands = .bind ⟨true, [0x1003]⟩ :: [] := ⟨rfl, rfl⟩
/-- In range at the last slot and at the last ids; out of range one beyond each bound. -/
theorem witness_RegistrationSetsOneSlot :
    (idle [.register 1 0 31]).halted = true ∧ (idle [.register 1 0 31]).commands = .register 1 0 31 :: [] ∧
    HostTable.wf (idle [.register 1 0 31]).params.hcCapacity (idle [.register 1 0 31]).slots = true ∧
    (0 ≤ 15 ∧ 31 ≤ 255 ∧ 0 * 256 + 31 < (idle [.register 1 0 31]).params.hcCapacity) ∧
    (idle []).params.hcCapacity ≤ 0 * 256 + 32 ∧ 15 < 16 ∧ 255 < 256 := by decide
theorem witness_OverwriteDispatchesSecondOnly :
    (idle [.register 1 0 5, .register 2 0 5]).halted = true ∧
    HostTable.wf (idle []).params.hcCapacity (idle []).slots = true ∧
    (0#4).toNat * 256 + (5#8).toNat < (idle []).params.hcCapacity ∧
    (idle [.register 1 0 5, .register 2 0 5]).commands =
      .register 1 (0#4).toNat (5#8).toNat :: .register 2 (0#4).toNat (5#8).toNat :: [] := by decide
/-- The two clauses of that statement on one later state each: no answer there, and one there. -/
theorem witness_OverwriteDispatchesSecondOnly_answers :
    (base []).answers = [] ∧
    ({ base [] with answers := [⟨RegFile.zero, true⟩] } : State).answers = ⟨RegFile.zero, true⟩ :: [] := ⟨rfl, rfl⟩
theorem witness_OnlyRunLeavesHalted :
    ((idle []).halted = true ∧ (idle []).commands = [] ∧ ∃ t, step (idle []) = .next t ∧ t.halted = true) ∧
    ((idle [.run]).halted = true ∧ ∃ t, step (idle [.run]) = .next t ∧ t.halted = false) :=
  ⟨⟨rfl, rfl, _, rfl, rfl⟩, ⟨rfl, _, rfl, rfl⟩⟩
/-- The invariant with a callback registered and the engine waiting for it. -/
theorem witness_StepKeepsInvariant :
    Inv { hostState with pending := some ⟨7, 1, 2⟩ } ∧
    ∃ t, step { hostState with pending := some ⟨7, 1, 2⟩ } = .next t :=
  ⟨⟨by decide, by decide, by decide, by decide, by decide⟩, _, rfl⟩
theorem witness_ConstructionMeetsInvariant :
    Params.wf ⟨4096, true, true⟩ = true ∧ Memory.wf ⟨true, [0x0007]⟩ = true := by decide
theorem witness_RecordHasNoEffect :
    (base []).forgetRecord = ({ base [] with replies := [.exited 3] } : State).forgetRecord ∧
    base [] ≠ { base [] with replies := [.exited 3] } := ⟨rfl, by decide⟩
theorem witness_RunIgnoresEarlierRuns :
    let s := idle [.run]
    let t : State := { withRegs (idle [.run]) [(3, 9)] with exitCode := 0xFC, pos := 8 }
    s.halted = true ∧ t.halted = true ∧ s.commands = .run :: [] ∧ t.commands = .run :: [] ∧
    s.byteCode = t.byteCode ∧ s.params = t.params ∧ s.slots = t.slots ∧ s.answers = t.answers ∧
    s.pending = none ∧ t.pending = none ∧ s ≠ t := by decide
theorem witness_FileRoundTrip : [(0x1003 : RawInstr), 0xFFFF].length < 2 ^ 32 := by decide
theorem witness_FileReaderRejects :
    let p : FileParams := ⟨[0x50, 0x56, 0x4D], 1, false⟩
    let q : FileParams := ⟨[0x51, 0x56, 0x4D], 1, false⟩
    let r : FileParams := ⟨[0x50, 0x56, 0x4D], 2, false⟩
    p.magic.length = q.magic.length ∧ q.magic ≠ p.magic ∧
    r.magic = p.magic ∧ p.version.toNat < r.version.toNat := by decide

end Sys2Proof.Tests
end

section
/-! The checked read (10_state R22, R23): each of `haltWith`, `effReg` and `useField` once per side of the bound 12,
and from `chk_eq` and `rd_eq` the statement O8. -/

namespace Sys2Proof.Machine

section CheckedRead
variable {i : RegField} {s : State}

/-- R203 as one record update: the case of a halted engine is only in the code that stays. -/
theorem haltWith_eq_update (c : Byte) (s : State) :
    haltWith c s = { s with halted := true, exitCode := if s.halted then s.exitCode else c } := by
  cases hs : s.halted with
  | false => simp [haltWith, hs]
  | true => simp [haltWith, ← hs]

theorem effReg_of_le (h : i.toNat ≤ 12) : effReg i = ⟨i.toNat, by omega⟩ := dif_pos h

theorem effReg_of_ge (h : 13 ≤ i.toNat) : effReg i = 12 := dif_neg (by omega)

theorem useField_of_le (h : i.toNat ≤ 12) : useField i s = s := by
  have hlegal : illegalField i = false := decide_eq_false (by omega)
  simp [useField, hlegal]

theorem useField_of_ge (h : 13 ≤ i.toNat) : useField i s = haltWith 0xFE s := by
  have hillegal : illegalField i = true := decide_eq_true (by omega)
  simp [useField, hillegal]

end CheckedRead

/-- Settles O8: `chk` and `rd` are `effReg` and `useField` (R22, R23), which split at the bound 12; the fault is the
halt routine's record update. -/
theorem checkedReadFallsBackToLocal : Obligations.CheckedReadFallsBackToLocal := by
  intro i s
  rw [chk_eq, rd_eq]
  refine ⟨fun legal => ?_, fun illegal => ?_⟩
  · rw [effReg_of_le legal, useField_of_le legal]
    exact ⟨rfl, rfl⟩
  · rw [effReg_of_ge illegal, useField_of_ge illegal]
    exact ⟨rfl, rfl, rfl, haltWith_eq_update 0xFE s⟩

end Sys2Proof.Machine
end

section
/-! The codec (30_encoding R71 to R75): where each field of a word lies, what a packed word is as a number, and that
`unpack` and `pack` undo each other; from these the statements O1 and O2. -/

namespace Sys2Proof

section Unpack
variable (w : RawInstr)

theorem unpack_opcode_toNat : (unpack w).opcode.toNat = w.toNat / 2 ^ 12 := by
  have field : (unpack w).opcode.toNat = w.toNat >>> 12 % 16 := BitVec.extractLsb'_toNat 12 4 w
  have fits : w.toNat / 2 ^ 12 < 16 := by omega
  rw [field, Nat.shiftRight_eq_div_pow, Nat.mod_eq_of_lt fits]

theorem unpack_dest_toNat : (unpack w).dest.toNat = w.toNat / 2 ^ 8 % 16 := by
  have field : (unpack w).dest.toNat = w.toNat >>> 8 % 16 := BitVec.extractLsb'_toNat 8 4 w
  rw [field, Nat.shiftRight_eq_div_pow]

theorem unpack_value_toNat : (unpack w).value.toNat = w.toNat % 256 :=
  BitVec.extractLsb'_toNat 0 8 w

/-- The views of `value` are the two low fields of the word itself. -/
theorem unpack_argA : (unpack w).argA = w.extractLsb' 4 4 :=
  BitVec.extractLsb'_extractLsb'_of_le (by decide)

theorem unpack_argB : (unpack w).argB = w.extractLsb' 0 4 :=
  BitVec.extractLsb'_extractLsb'_of_le (by decide)

theorem unpack_argA_toNat : (unpack w).argA.toNat = w.toNat / 16 % 16 := by
  rw [unpack_argA, BitVec.extractLsb'_toNat, Nat.shiftRight_eq_div_pow]

theorem unpack_argB_toNat : (unpack w).argB.toNat = w.toNat % 16 := by
  rw [unpack_argB, BitVec.extractLsb'_toNat, Nat.shiftRight_zero]

end Unpack

/-- Concatenation as arithmetic: the high part is scaled past the width of the low part. -/
theorem toNat_append_eq_add {m n : Nat} (x : BitVec m) (y : BitVec n) :
    (x ++ y).toNat = x.toNat * 2 ^ n + y.toNat := by
  rw [BitVec.toNat_append, ← Nat.shiftLeft_add_eq_or_of_lt y.isLt, Nat.shiftLeft_eq]

theorem pack_toNat (d : DecodedInstruction) :
    (pack d).toNat = d.opcode.toNat * 2 ^ 12 + d.dest.toNat * 2 ^ 8 + d.value.toNat := by
  rw [pack, toNat_append_eq_add, toNat_append_eq_add]
  omega

theorem dest_pack (d : DecodedInstruction) : (pack d).extractLsb' 8 4 = d.dest := by
  rw [pack, BitVec.extractLsb'_append_eq_of_le (by decide)]
  exact BitVec.extractLsb'_append_eq_right

theorem value_pack (d : DecodedInstruction) : (pack d).extractLsb' 0 8 = d.value :=
  BitVec.extractLsb'_append_eq_right

theorem unpack_pack (d : DecodedInstruction) : unpack (pack d) = d := by
  rw [unpack, Laws.OpcodeField.opcode_pack, dest_pack, value_pack]

/-- Adjacent fields of a word join: first opcode with dest, then both with value. -/
theorem pack_unpack (w : RawInstr) : pack (unpack w) = w := by
  have highByte : w.extractLsb' 12 4 ++ w.extractLsb' 8 4 = w.extractLsb' 8 8 :=
    BitVec.extractLsb'_append_extractLsb'_eq_extractLsb' rfl
  calc pack (unpack w)
      = (w.extractLsb' 12 4 ++ w.extractLsb' 8 4) ++ w.extractLsb' 0 8 := rfl
    _ = w.extractLsb' 8 8 ++ w.extractLsb' 0 8 := by rw [highByte]
    _ = w := BitVec.extractLsb'_append_extractLsb'

/-- `packRRR`'s value (R75): `a` is shifted past the four bits of `b`. -/
theorem pairValue_eq_or (a b : RegField) : pairValue a b = b.zeroExtend 8 ||| (a.zeroExtend 8 <<< 4) := by
  rw [pairValue, BitVec.append_def, BitVec.shiftLeftZeroExtend_eq, BitVec.setWidth'_eq, BitVec.or_comm]

/-- Settles O1: one lemma for each field, from the place where `unpack` or the view cuts it out. -/
theorem unpackTakesBitFields : Obligations.UnpackTakesBitFields := fun w =>
  ⟨unpack_opcode_toNat w, unpack_dest_toNat w, unpack_value_toNat w, unpack_argA_toNat w, unpack_argB_toNat w⟩

/-- Settles O2: `pack` is a concatenation, which `unpack` cuts at the same places. -/
theorem packAndUnpackAreInverses : Obligations.PackAndUnpackAreInverses :=
  ⟨fun d => ⟨pack_toNat d, unpack_pack d⟩, pairValue_eq_or, pack_unpack⟩

end Sys2Proof
end

section
/-! Set (41_move R120): decoding a packed word selects by the packed fields, and Set's arm is the operand form L8; from
these and that form's law the statement O10. -/

namespace Sys2Proof

theorem decode_pack (d : DecodedInstruction) : decode (pack d) = select d := by
  rw [decode, unpack_pack]

namespace Machine

theorem exec_set (d : RegField) (v : Byte) (s : State) : exec (.set d v) s = .next (operandL8 d v s) := rfl

/-- The literal that Set writes, as the number it stands for (R77, R120). -/
theorem exec_set_writesOne (d : RegField) (v : Byte) (s : State) :
    ∃ t, exec (.set d v) s = .next t ∧ WritesOne s t d (BitVec.ofNat 32 v.toNat) [d] := by
  have literal : BitVec.ofNat 32 v.toNat = v.zeroExtend 32 := BitVec.ofNat_toNat 32 v
  rw [literal]
  exact ⟨operandL8 d v s, exec_set d v s, operandL8_writesOne d v s⟩

/-- Settles O10: the written word is `pack` of the fields that the assembler's line has too, and the effect is the law
of the form L8. -/
theorem setWritesLiteral : Obligations.SetWritesLiteral := fun d v s =>
  ⟨decode_pack ⟨1, d, v⟩, rfl, exec_set_writesOne d v s⟩

end Machine

end Sys2Proof
end

section
/-! Add and Sub (42_arith R131, R132): a word of four fields is `pack` of the two registers paired, its decoding gives
them back, and the form RRR on a wrapped operation writes the wrap of the exact result; from these the statements O12
and O13. -/

namespace Sys2Proof

section RRR
variable (op : BitVec 4) (d a b : RegField)

/-- The word of the form RRR, field by field (R72, R75). -/
theorem pack_pairValue : pack ⟨op, d, pairValue a b⟩ = op ++ d ++ a ++ b :=
  (BitVec.append_assoc (x₁ := op ++ d) (x₂ := a) (x₃ := b)).symm

@[simp] theorem argA_pairValue : (DecodedInstruction.mk op d (pairValue a b)).argA = a :=
  BitVec.extractLsb'_append_eq_left

@[simp] theorem argB_pairValue : (DecodedInstruction.mk op d (pairValue a b)).argB = b :=
  BitVec.extractLsb'_append_eq_right

/-- Decoding a word of four fields selects by the opcode, with the two low fields paired. -/
theorem decode_append : decode (op ++ d ++ a ++ b) = select ⟨op, d, pairValue a b⟩ := by
  rw [← pack_pairValue, decode_pack]

end RRR

theorem decode_add (d a b : RegField) : decode (0b0011#4 ++ d ++ a ++ b) = .add d a b := by
  rw [decode_append]
  simp [select]

theorem decode_sub (d a b : RegField) : decode (0b0100#4 ++ d ++ a ++ b) = .sub d a b := by
  rw [decode_append]
  simp [select]

namespace Machine

/-- A wrapped operation in the form RRR: the written value is congruent to the exact result on the registers read
(R130). -/
theorem operandRRR_wrap32_writesOne (f : Int → Int → Int) (d a b : RegField) (s : State) :
    ∃ v, IsWrap32 v (f (s.reg (effReg a)).toInt (s.reg (effReg b)).toInt) ∧
      WritesOne s (operandRRR (fun x y => wrap32 (f x.toInt y.toInt)) d a b s) d v [a, b, d] :=
  ⟨_, wrap32_isWrap32 _, operandRRR_writesOne _ d a b s⟩

theorem exec_add (d a b : RegField) (s : State) :
    exec (.add d a b) s = .next (operandRRR (fun x y => wrap32 (x.toInt + y.toInt)) d a b s) := rfl

theorem exec_sub (d a b : RegField) (s : State) :
    exec (.sub d a b) s = .next (operandRRR (fun x y => wrap32 (x.toInt - y.toInt)) d a b s) := rfl

/-- Settles O12: the law of wrapped operations in the form RRR, for the sum. -/
theorem addWritesWrappedSum : Obligations.AddWritesWrappedSum := by
  intro d a b s
  obtain ⟨v, isSum, writes⟩ := operandRRR_wrap32_writesOne (· + ·) d a b s
  exact ⟨decode_add d a b, pack_pairValue 3 d a b, _, v, exec_add d a b s, isSum, writes⟩

/-- Settles O13: the law of wrapped operations in the form RRR, for the difference `a - b`. -/
theorem subWritesWrappedDifference : Obligations.SubWritesWrappedDifference := by
  intro d a b s
  obtain ⟨v, isDifference, writes⟩ := operandRRR_wrap32_writesOne (· - ·) d a b s
  exact ⟨decode_sub d a b, pack_pairValue 4 d a b, _, v, exec_sub d a b s, isDifference, writes⟩

end Machine

end Sys2Proof
end

section
/-! Eql and Neq (43_compare R151, R152): `b2i` of a decided proposition is the choice between 1 and 0, so the form RRR
on a condition writes that choice on the registers read; from these the statements O18 and O19. -/

namespace Sys2Proof

theorem decode_eql (d a b : RegField) : decode (0b1000#4 ++ d ++ a ++ b) = .eql d a b := by
  rw [decode_append]
  simp [select]

theorem decode_neq (d a b : RegField) : decode (0b1001#4 ++ d ++ a ++ b) = .neq d a b := by
  rw [decode_append]
  simp [select]

namespace Machine

/-- R8: 1 when the proposition holds and 0 when it does not. -/
theorem b2i_decide (p : Prop) [Decidable p] : b2i (decide p) = if p then 1 else 0 := by
  by_cases hp : p
  · rw [decide_eq_true hp, if_pos hp]
    rfl
  · rw [decide_eq_false hp, if_neg hp]
    rfl

theorem condEql_eq_ite (x y : Word) : condEql x y = if x = y then 1 else 0 := b2i_decide (x = y)

/-- R152 with its two values in the order of the equality, not of its negation. -/
theorem condNeq_eq_ite (x y : Word) : condNeq x y = if x = y then 0 else 1 :=
  calc condNeq x y
      = if x ≠ y then 1 else 0 := b2i_decide (x ≠ y)
    _ = if x = y then 0 else 1 := ite_not (x = y) 1 0

theorem exec_eql (d a b : RegField) (s : State) :
    exec (.eql d a b) s = .next (operandRRR condEql d a b s) := rfl

theorem exec_neq (d a b : RegField) (s : State) :
    exec (.neq d a b) s = .next (operandRRR condNeq d a b s) := rfl

/-- Settles O18: the law of the form RRR, with the condition of Eql as a choice on equality. -/
theorem eqlWritesOneOrZero : Obligations.EqlWritesOneOrZero := by
  intro d a b s
  rw [← condEql_eq_ite]
  exact ⟨decode_eql d a b, pack_pairValue 8 d a b, _, exec_eql d a b s, operandRRR_writesOne condEql d a b s⟩

/-- Settles O19: the law of the form RRR, with the condition of Neq as a choice on equality. -/
theorem neqWritesOneOrZero : Obligations.NeqWritesOneOrZero := by
  intro d a b s
  rw [← condNeq_eq_ite]
  exact ⟨decode_neq d a b, pack_pairValue 9 d a b, _, exec_neq d a b s, operandRRR_writesOne condNeq d a b s⟩

end Machine

end Sys2Proof
end

section
/-! The decoder and the encoder on whole instructions (30_encoding R75, R76, R81, R83, R90): `select` and
`Instr.fields` undo each other, and with `pack` and `unpack` so do `decode` and `encode`; every row of the opcode table matches by the
opcode alone. From these the statements O3, O4, O5 and O6. -/

namespace Sys2Proof

/-- The two views of a value field, paired, are the field. -/
@[simp] theorem pairValue_argA_argB (d : DecodedInstruction) : pairValue d.argA d.argB = d.value :=
  BitVec.extractLsb'_append_extractLsb'

@[simp] theorem modeOfBit_bitOfMode (m : JumpMode) : modeOfBit ((bitOfMode m).getLsbD 0) = m := by
  cases m <;> rfl

@[simp] theorem bitOfMode_modeOfBit (b : Bool) : bitOfMode (modeOfBit b) = BitVec.ofBool b := by
  cases b <;> rfl

/-- Jump's value field is cut at bit 1 (R162). -/
theorem unused_append_mode (v : Byte) : v.extractLsb' 1 7 ++ bitOfMode (modeOfBit (v.getLsbD 0)) = v := by
  have low : BitVec.ofBool (v.getLsbD 0) = v.extractLsb' 0 1 := by
    ext i hi
    obtain rfl : i = 0 := by omega
    simp
  rw [bitOfMode_modeOfBit, low]
  exact BitVec.extractLsb'_append_extractLsb'

theorem mode_of_append (u : BitVec 7) (m : JumpMode) : modeOfBit ((u ++ bitOfMode m).getLsbD 0) = m := by
  rw [BitVec.getLsbD_append]
  exact modeOfBit_bitOfMode m

theorem unused_of_append (u : BitVec 7) (m : JumpMode) : (u ++ bitOfMode m).extractLsb' 1 7 = u :=
  BitVec.extractLsb'_append_eq_left

/-- The dispatcher selects the instruction that the fields are of. -/
theorem select_fields (i : Instr) : select i.fields = i := by
  cases i with
  | jmp d u m =>
    show Instr.jmp d ((u ++ bitOfMode m).extractLsb' 1 7) (modeOfBit ((u ++ bitOfMode m).getLsbD 0)) = .jmp d u m
    rw [unused_of_append, mode_of_append]
  | cpy | add | sub | mul | div | eql | neq | gre | les => simp [select, Instr.fields]
  | halt | set | inv | hcl | unassigned14 | unassigned15 => rfl

/-- The selected instruction keeps every field, used or not (R75). -/
theorem fields_select (d : DecodedInstruction) : (select d).fields = d := by
  obtain ⟨⟨op, hop⟩, dest, value⟩ := d
  have views := pairValue_argA_argB ⟨⟨op, hop⟩, dest, value⟩
  -- Jump alone cuts its value field elsewhere
  by_cases jump : op = 12
  · subst jump
    exact congrArg (DecodedInstruction.mk 12 dest) (unused_append_mode value)
  · interval_cases op <;> simp_all [select, Instr.fields]

theorem decode_encode (i : Instr) : decode (encode i) = i := by
  rw [encode, decode_pack, select_fields]

theorem encode_decode (w : RawInstr) : encode (decode w) = w := by
  rw [encode, decode, fields_select, pack_unpack]

/-- Settles O3: the codec on fields (`unpack_pack`, `pack_unpack`) around the choice by the opcode. -/
theorem decodeAndEncodeAreInverses : Obligations.DecodeAndEncodeAreInverses := ⟨decode_encode, encode_decode⟩

/-- The mnemonic is chosen by the opcode alone. -/
theorem mnemonic_select (d : DecodedInstruction) : (select d).mnemonic = (select ⟨d.opcode, 0, 0⟩).mnemonic := by
  obtain ⟨⟨op, hop⟩, dest, value⟩ := d
  interval_cases op <;> rfl

theorem opcodeTable_mask : ∀ r ∈ opcodeTable, r.mask = 0xF000 := by decide

/-- The mask of every row keeps the opcode and clears the other fields. -/
theorem and_opcodeMask (w : RawInstr) : w &&& 0xF000 = (unpack w).opcode ++ 0#12 := by
  ext i hi
  rw [BitVec.getElem_append]
  interval_cases i <;> simp [unpack]

/-- A row of the table matches a word by the word's opcode (R83). -/
theorem hits_eq_of_mem {r : OpcodeRow} (hr : r ∈ opcodeTable) (w : RawInstr) :
    r.hits w = ((unpack w).opcode ++ 0#12 == r.bits) := by
  rw [OpcodeRow.hits, opcodeTable_mask r hr, and_opcodeMask]

/-- The rows of the table, one for each opcode (R76). -/
theorem filter_opcodeTable : ∀ op : BitVec 4,
    (opcodeTable.filter (fun r => op ++ 0#12 == r.bits)).map OpcodeRow.mnemonic = [(select ⟨op, 0, 0⟩).mnemonic] := by
  decide

/-- Settles O4: the rows that hit a word are those of its opcode, which is one. -/
theorem everyWordDecodesToItsOneRow : Obligations.EveryWordDecodesToItsOneRow := by
  intro w
  rw [decode, mnemonic_select, ← filter_opcodeTable, List.filter_congr fun r hr => hits_eq_of_mem hr w]

/-- Settles O5: thirteen words of 95_test_vectors, decoded by evaluation. -/
theorem specWordsDecode : Obligations.SpecWordsDecode := by
  unfold Obligations.SpecWordsDecode
  decide

namespace Machine

/-- The assembler's word is decoded by its fields (R90). -/
theorem decode_word (l : AsmLine) : decode l.word = select l.fields := decode_pack l.fields

theorem decode_word_jmp (d : RegField) (l : Int) :
    decode (AsmLine.jmp d l).word = .jmp d 0 (if l = 0 then .relative else .absolute) := by
  rw [decode_word]
  by_cases hl : l = 0
  · rw [AsmLine.fields, if_pos hl, if_pos hl]
    simp [select, modeOfBit]
  · rw [AsmLine.fields, if_neg hl, if_neg hl]
    simp [select, modeOfBit]

/-- Settles O6: each line's word selects by the line's fields. -/
theorem assembledLinesDecode : Obligations.AssembledLinesDecode := by
  refine ⟨fun _ => decode_word _, fun _ _ => decode_word _, ?_, ?_, ?_, ?_, ?_, ?_, ?_, ?_, ?_,
    fun _ => decode_word _, decode_word_jmp, fun _ _ => decode_word _⟩ <;>
  · intros
    rw [decode_word]
    simp [select, AsmLine.fields]

end Machine

end Sys2Proof
end

section
/-! The status after a chain of codes (60_exceptions R203, R206), and the arithmetic, comparison and halting
instructions (40_dispatch, 41_move, 42_arith, 43_compare); from these the statements O7, O9, O11, O14 to O17, O20 and
O22. -/

namespace Sys2Proof

/-- A word of four fields decodes to the instruction that has them. -/
theorem decode_append_of_fields {i : Instr} {op : BitVec 4} {d a b : RegField}
    (h : i.fields = ⟨op, d, pairValue a b⟩) : decode (op ++ d ++ a ++ b) = i := by
  rw [← pack_pairValue, ← h]
  exact decode_encode i

namespace Machine

section Status
variable (s : State)

@[simp] theorem haltedAfter_nil : haltedAfter s [] = s.halted := Bool.or_false _
@[simp] theorem codeAfter_nil : codeAfter s [] = s.exitCode := ite_self _

theorem haltWith_halted_eq (c : Byte) : (haltWith c s).halted = haltedAfter s [c] := by simp [haltedAfter]

theorem haltWith_exitCode_eq (c : Byte) : (haltWith c s).exitCode = codeAfter s [c] := haltWith_exitCode c s

/-- A code raised first is the head of the chain. -/
theorem haltedAfter_haltWith (c : Byte) (codes : List Byte) :
    haltedAfter (haltWith c s) codes = haltedAfter s (c :: codes) := by simp [haltedAfter]

theorem codeAfter_haltWith (c : Byte) (codes : List Byte) :
    codeAfter (haltWith c s) codes = codeAfter s (c :: codes) := by
  simp [codeAfter, haltWith_exitCode]

theorem haltedAfter_useField (i : RegField) (codes : List Byte) :
    haltedAfter (useField i s) codes = haltedAfter s (registerFaults [i] ++ codes) := by
  cases hi : illegalField i with
  | false => simp [useField, registerFaults, hi]
  | true => simp [useField, registerFaults, hi, haltedAfter_haltWith]

theorem codeAfter_useField (i : RegField) (codes : List Byte) :
    codeAfter (useField i s) codes = codeAfter s (registerFaults [i] ++ codes) := by
  cases hi : illegalField i with
  | false => simp [useField, registerFaults, hi]
  | true => simp [useField, registerFaults, hi, codeAfter_haltWith]

theorem registerFaults_cons (i : RegField) (fs : List RegField) :
    registerFaults (i :: fs) = registerFaults [i] ++ registerFaults fs := by
  rw [registerFaults, registerFaults, registerFaults, ← List.map_append, ← List.filter_append, List.singleton_append]

theorem haltWith_sameSurroundings (c : Byte) : SameSurroundings s (haltWith c s) := by simp [SameSurroundings]

theorem useField_sameSurroundings (i : RegField) : SameSurroundings s (useField i s) := by simp [SameSurroundings]

end Status

theorem SameSurroundings.trans {s t u : State} (h : SameSurroundings s t) (k : SameSurroundings t u) :
    SameSurroundings s u := by
  simp_all [SameSurroundings]

/-- A field used before the others is the first of the fields used. -/
theorem WritesOne.of_useField {s t : State} {i d : RegField} {v : Word} {fs : List RegField}
    (h : WritesOne (useField i s) t d v fs) : WritesOne s t d v (i :: fs) := by
  obtain ⟨value, others, pos, halted, code, rest⟩ := h
  rw [useField_pos] at pos
  rw [haltedAfter_useField, ← registerFaults_cons] at halted
  rw [codeAfter_useField, ← registerFaults_cons] at code
  exact ⟨value, fun j hj => by rw [others j hj, useField_reg], pos, halted, code,
    (useField_sameSurroundings s i).trans rest⟩

/-- Settles O7: no arm reads the fields named. -/
theorem unusedFieldsAreIgnored : Obligations.UnusedFieldsAreIgnored := fun _ _ _ _ _ _ _ _ _ _ _ =>
  ⟨rfl, rfl, rfl, rfl, rfl, rfl⟩

theorem haltWith_of_running (c : Byte) {s : State} (running : s.halted = false) :
    haltWith c s = { s with exitCode := c, halted := true } := by
  simp [haltWith, running]

theorem haltWith_of_halted (c : Byte) {s : State} (halted : s.halted = true) : haltWith c s = s := if_pos halted

/-- Settles O9: both sides of the test of `halted`; after any halt the engine is halted. -/
theorem haltRoutineRecordsFirstCode : Obligations.HaltRoutineRecordsFirstCode := fun c s =>
  ⟨haltWith_of_running c, haltWith_of_halted c, fun c' => haltWith_of_halted c' (haltWith_halted c s), rfl⟩

theorem exec_cpy (d a b : RegField) (s : State) : exec (.cpy d a b) s = .next (operandRR id d a s) := rfl

/-- Settles O11: the law of the form RR, for the identity. -/
theorem copyMovesRegister : Obligations.CopyMovesRegister := fun d a b s =>
  ⟨decode_append_of_fields rfl, _, exec_cpy d a b s, operandRR_writesOne id d a s⟩

theorem exec_mul (d a b : RegField) (s : State) :
    exec (.mul d a b) s = .next (operandRRR (fun x y => wrap32 (x.toInt * y.toInt)) d a b s) := rfl

/-- Settles O14: the law of wrapped operations in the form RRR, for the product. -/
theorem mulWritesWrappedProduct : Obligations.MulWritesWrappedProduct := by
  intro d a b s
  obtain ⟨v, isProduct, writes⟩ := operandRRR_wrap32_writesOne (· * ·) d a b s
  exact ⟨decode_append_of_fields rfl, _, v, exec_mul d a b s, isProduct, writes⟩

/-- Truncation by magnitudes and signs is the library's truncated division (R137). -/
theorem truncQuot_eq_tdiv (a b : Int) : truncQuot a b = a.tdiv b := by
  have magnitude : (a.tdiv b).natAbs = a.natAbs / b.natAbs := Int.natAbs_tdiv a b
  rw [truncQuot, ← Int.sign_mul_natAbs (a.tdiv b), magnitude, Int.sign_tdiv]
  split
  case isTrue small => simp [Nat.div_eq_of_lt small]
  case isFalse => rfl

theorem exec_div_of_ne_zero {b : RegField} {s : State} (nonzero : s.reg (effReg b) ≠ 0) (d a : RegField) :
    exec (.div d a b) s =
      .next (operandRR (fun x => wrap32 (x.toInt.tdiv (s.reg (effReg b)).toInt)) d a (useField b s)) := by
  simp only [exec, execDiv, rd_eq]
  rw [if_neg nonzero]

theorem exec_div_of_eq_zero {b : RegField} {s : State} (zero : s.reg (effReg b) = 0) (d a : RegField) :
    exec (.div d a b) s = .next (haltWith 0xFC (useField b s)) := by
  simp only [exec, execDiv, rd_eq]
  rw [if_pos zero]
  rfl

/-- Settles O15: after the use of the divisor's field, the law of the form RR. -/
theorem divWritesTruncatedQuotient : Obligations.DivWritesTruncatedQuotient := by
  refine fun d a b s => ⟨decode_append_of_fields rfl, fun nonzero => ?_⟩
  have writes := (operandRR_writesOne (fun x => wrap32 (x.toInt.tdiv (s.reg (effReg b)).toInt)) d a
    (useField b s)).of_useField
  rw [useField_reg] at writes
  rw [truncQuot_eq_tdiv]
  exact ⟨_, _, exec_div_of_ne_zero nonzero d a, wrap32_isWrap32 _, writes⟩

/-- Settles O16: the two faults that can come, in their order. -/
theorem divByZeroHaltsUnwritten : Obligations.DivByZeroHaltsUnwritten := by
  intro d a b s zero
  refine ⟨_, exec_div_of_eq_zero zero d a, by simp, by simp, by simp, ?_, ?_⟩
  · rw [haltWith_exitCode_eq, codeAfter_useField]
  · exact (useField_sameSurroundings s b).trans (haltWith_sameSurroundings _ _)

theorem exec_inv (d : RegField) (u : Byte) (s : State) :
    exec (.inv d u) s = .next (operandR (fun x => wrap32 (-x.toInt)) d s) := rfl

/-- Settles O17: the law of the form R, for the wrapped negation. -/
theorem invNegatesInPlace : Obligations.InvNegatesInPlace := fun d u s =>
  ⟨decode_encode (.inv d u), _, _, exec_inv d u s, wrap32_isWrap32 _, operandR_writesOne _ d s⟩

theorem condGrt_eq_ite (x y : Word) : condGrt x y = if x.toInt > y.toInt then 1 else 0 := b2i_decide _

theorem condLet_eq_ite (x y : Word) : condLet x y = if x.toInt < y.toInt then 1 else 0 := b2i_decide _

theorem exec_gre (d a b : RegField) (s : State) : exec (.gre d a b) s = .next (operandRRR condGrt d a b s) := rfl

theorem exec_les (d a b : RegField) (s : State) : exec (.les d a b) s = .next (operandRRR condLet d a b s) := rfl

/-- Settles O20: the law of the form RRR, for the two signed conditions. -/
theorem grtAndLetCompareSigned : Obligations.GrtAndLetCompareSigned := by
  intro d a b s
  rw [← condGrt_eq_ite, ← condLet_eq_ite]
  exact ⟨decode_append_of_fields rfl, decode_append_of_fields rfl,
    ⟨_, exec_gre d a b s, operandRRR_writesOne condGrt d a b s⟩,
    ⟨_, exec_les d a b s, operandRRR_writesOne condLet d a b s⟩⟩

theorem exec_halt (d : RegField) (v : Byte) (s : State) : exec (.halt d v) s = .next (haltWith v s) := rfl

theorem exec_unassigned14 (d : RegField) (v : Byte) (s : State) :
    exec (.unassigned14 d v) s = .next (haltWith v s) := rfl

theorem exec_unassigned15 (d : RegField) (v : Byte) (s : State) :
    exec (.unassigned15 d v) s = .next (haltWith v s) := rfl

/-- Settles O22: the three arms are one halt routine. -/
theorem haltLikeOpcodesEndTheRun : Obligations.HaltLikeOpcodesEndTheRun := by
  intro d v s ended
  have halts : ended (haltWith v s) :=
    ⟨haltWith_x v s, haltWith_pos v s, haltWith_halted v s, haltWith_exitCode_eq s v, haltWith_sameSurroundings s v⟩
  exact ⟨⟨decode_encode (.halt d v), _, exec_halt d v s, halts⟩,
    ⟨decode_encode (.unassigned14 d v), _, exec_unassigned14 d v s, halts⟩,
    ⟨decode_encode (.unassigned15 d v), _, exec_unassigned15 d v s, halts⟩⟩

end Machine

end Sys2Proof
end

section
/-! Jump and CallHost (44_jump, 45_hostcall): each arm of either as one equation of `exec`; from these the statements
O21 and O23 to O25. -/

namespace Sys2Proof

/-- The word of the form J, cut at bit 1 of its value, decodes to the jump (R162). -/
theorem decode_jmp (d : RegField) (u : BitVec 7) (m : JumpMode) :
    decode (0b1100#4 ++ d ++ u ++ (if m = .absolute then 1#1 else 0#1)) = .jmp d u m := by
  have mode : (if m = .absolute then 1#1 else 0#1) = bitOfMode m := by cases m <;> rfl
  have word : 0b1100#4 ++ d ++ u ++ bitOfMode m = encode (.jmp d u m) := BitVec.append_assoc
  rw [mode, word, decode_encode]

namespace Machine

/-- A target below 2^32 is the position it is written as. -/
theorem toNat_ofInt_of_lt {t : Int} (nonneg : 0 ≤ t) (lt : t < 2 ^ 32) : ((BitVec.ofInt 32 t).toNat : Int) = t := by
  rw [BitVec.toNat_ofInt]
  omega

section Jump
variable {d : RegField} {m : JumpMode} {s : State} (u : BitVec 7)

theorem exec_jmp_of_stays (stays : m = .relative ∧ s.reg (effReg d) = 0) :
    exec (.jmp d u m) s = .next (useField d s) := by
  simp only [exec, execJmp, rd_eq]
  rw [if_pos stays]

theorem exec_jmp_of_moves (moves : ¬(m = .relative ∧ s.reg (effReg d) = 0)) :
    exec (.jmp d u m) s = .next (jumpTo (jumpDest m s.pos (s.reg (effReg d)).toInt) (useField d s)) := by
  simp only [exec, execJmp, rd_eq]
  rw [if_neg moves, jumpTarget_eq, useField_pos]

end Jump

/-- Settles O21: the relative jump by 0, the accepted target and the refused one, each after the use of the field. -/
theorem jumpTransfersOrFaults : Obligations.JumpTransfersOrFaults := by
  intro d u m s countFits off dst stays inside codes
  refine ⟨decode_jmp d u m, ?_⟩
  have zero_iff : off = 0 ↔ s.reg (effReg d) = 0 := BitVec.toInt_inj (y := 0)
  have frame := useField_sameSurroundings s d
  obtain ⟨fieldHalted, fieldCode⟩ := useField_status [d] s
  by_cases hstays : m = .relative ∧ s.reg (effReg d) = 0
  · have stays_eq : stays = true := by simp [stays, zero_iff, hstays]
    have codes_eq : codes = registerFaults [d] := by simp [codes, stays_eq]
    rw [codes_eq]
    exact ⟨_, exec_jmp_of_stays u hstays, by simp [stays_eq], useField_x d s, fieldHalted, fieldCode, frame⟩
  · have stays_eq : stays = false := by simpa [stays, zero_iff] using hstays
    refine ⟨_, exec_jmp_of_moves u hstays, ?_⟩
    rcases jumpTo_cases dst (useField d s) with ⟨nonneg, lt, taken⟩ | ⟨outside, refused⟩
    · rw [useField_byteCode] at lt
      have inside_eq : inside = true := by simp [inside, nonneg, lt]
      have codes_eq : codes = registerFaults [d] := by simp [codes, inside_eq]
      have fits : dst < 2 ^ 32 := lt.trans (Int.ofNat_lt.mpr (of_decide_eq_true countFits))
      rw [taken, codes_eq]
      exact ⟨by simpa [stays_eq, inside_eq] using toNat_ofInt_of_lt nonneg fits, useField_x d s, fieldHalted,
        fieldCode, frame⟩
    · rw [useField_byteCode] at outside
      have inside_eq : inside = false := by simpa [inside] using outside
      have codes_eq : codes = registerFaults [d] ++ [0xFD] := by simp [codes, stays_eq, inside_eq]
      rw [refused, codes_eq, ← haltedAfter_useField, ← codeAfter_useField]
      exact ⟨by simp [inside_eq], by simp, haltWith_halted_eq _ _, haltWith_exitCode_eq _ _,
        frame.trans (haltWith_sameSurroundings _ _)⟩

section CallHost
variable {g : BitVec 4} {f : BitVec 8} {s : State}

theorem exec_hcl_of_hit {c : CallbackId} (hit : lookup g.toNat f.toNat s = some c) :
    exec (.hcl g f) s = .next (hcall ⟨c, g, f⟩ s) := by
  simp only [exec, execHcl, hit]

theorem exec_hcl_of_miss (miss : lookup g.toNat f.toNat s = none) :
    exec (.hcl g f) s = .next (if s.params.strictHostcall then haltWith 0xFF s else s) := by
  simp only [exec, execHcl, miss]
  split <;> rfl

theorem hcall_of_waits (q : HcallRequest) (waits : s.answers = []) : hcall q s = { s with pending := some q } := by
  simp only [hcall, waits]

theorem hcall_of_answered (q : HcallRequest) {a : HcallAnswer} {rest : List HcallAnswer}
    (answered : s.answers = a :: rest) : hcall q s = installAnswer q a rest s := by
  simp only [hcall, answered]

/-- A pair of ids that the table does not list has no callback (R185). -/
theorem lookup_eq_none (form : HostTable.wf s.params.hcCapacity s.slots = true)
    (missing : ∀ c, (g.toNat * 256 + f.toNat, c) ∉ s.slots) : lookup g.toNat f.toNat s = none :=
  Option.eq_none_iff_forall_ne_some.mpr fun c hit => missing c ((lookup_eq_some_iff form g f c).mp hit)

end CallHost

/-- Settles O23: the listed slot is looked up, and the answer that is there is installed. -/
theorem callHostInstallsTheAnswer : Obligations.CallHostInstallsTheAnswer := by
  intro g f c a rest s form listed answered
  have hit := (lookup_eq_some_iff form g f c).mpr listed
  have runs : exec (.hcl g f) s = .next (installAnswer ⟨c, g, f⟩ a rest s) := by
    rw [exec_hcl_of_hit hit, hcall_of_answered _ answered]
  obtain ⟨halted, code⟩ := installAnswer_status ⟨c, g, f⟩ a rest s
  exact ⟨decode_encode (.hcl g f), _, runs, by simp, by simp, by simp, by simp, halted, code, by simp, by simp,
    by simp, by simp, by simp, by simp, by simp⟩

/-- Settles O24: the listed slot is looked up, and no answer is there. -/
theorem callHostWaitsForTheAnswer : Obligations.CallHostWaitsForTheAnswer := by
  intro g f c s form listed waits
  rw [exec_hcl_of_hit ((lookup_eq_some_iff form g f c).mpr listed), hcall_of_waits _ waits]

/-- Settles O25: the miss, for both values of the parameter. -/
theorem callHostMissIsFaultOnlyWhenStrict : Obligations.CallHostMissIsFaultOnlyWhenStrict := by
  intro g f s form missing
  rw [exec_hcl_of_miss (lookup_eq_none form missing)]
  refine ⟨fun lenient => ?_, fun strict => ?_⟩
  · simp [lenient]
  · rw [if_pos strict, haltWith_eq_update]

end Machine

end Sys2Proof
end

section
/-! What an instruction can do, with its operands (`ExecEffect`), and what a step in a run can do: the two views from
which the safety of a run follows (40_dispatch R101, R106; 45_hostcall R183; 60_exceptions R200 to R203, R218). From
these the statements O26 to O34, O36 and O43. -/

namespace Sys2Proof.Machine

/-- The next states of an instruction, by what its arm does. -/
inductive ExecEffect (s : State) : Instr → State → Prop
  /-- Halt and the unassigned opcodes (R103, R104). -/
  | halts {i : Instr} (d : RegField) (v : Byte) (code : i ∈ [.halt d v, .unassigned14 d v, .unassigned15 d v]) :
      ExecEffect s i (haltWith v s)
  /-- The operand forms that write one register (R24, R25). -/
  | writes (i : Instr) {t : State} {d : RegField} {v : Word} {fs : List RegField} (w : WritesOne s t d v fs) :
      ExecEffect s i t
  /-- Div by 0 (R134). -/
  | divides (d a : RegField) {b : RegField} (zero : s.reg (effReg b) = 0) :
      ExecEffect s (.div d a b) (haltWith 0xFC (useField b s))
  /-- A relative jump by 0 (R161). -/
  | stays {d : RegField} (u : BitVec 7) {m : JumpMode} (zero : m = .relative ∧ s.reg (effReg d) = 0) :
      ExecEffect s (.jmp d u m) (useField d s)
  /-- Any other jump (R161). -/
  | jumps (d : RegField) (u : BitVec 7) (m : JumpMode) :
      ExecEffect s (.jmp d u m) (jumpTo (jumpDest m s.pos (s.reg (effReg d)).toInt) (useField d s))
  /-- CallHost that hits (R181, R183). -/
  | calls {g : BitVec 4} {f : BitVec 8} {c : CallbackId} (hit : lookup g.toNat f.toNat s = some c) :
      ExecEffect s (.hcl g f) (hcall ⟨c, g, f⟩ s)
  /-- CallHost that misses (R181). -/
  | misses {g : BitVec 4} {f : BitVec 8} (miss : lookup g.toNat f.toNat s = none) :
      ExecEffect s (.hcl g f) (if s.params.strictHostcall then haltWith 0xFF s else s)

/-- Every instruction has a next state, and it is one of those. -/
theorem exec_effect (i : Instr) (s : State) : ∃ t, exec i s = .next t ∧ ExecEffect s i t := by
  cases i with
  | halt d v => exact ⟨_, rfl, .halts d v (by simp)⟩
  | unassigned14 d v => exact ⟨_, rfl, .halts d v (by simp)⟩
  | unassigned15 d v => exact ⟨_, rfl, .halts d v (by simp)⟩
  | set d v => exact ⟨_, rfl, .writes _ (operandL8_writesOne d v s)⟩
  | cpy d a b => exact ⟨_, rfl, .writes _ (operandRR_writesOne _ d a s)⟩
  | inv d v => exact ⟨_, rfl, .writes _ (operandR_writesOne _ d s)⟩
  | add d a b | sub d a b | mul d a b | eql d a b | neq d a b | gre d a b | les d a b =>
    exact ⟨_, rfl, .writes _ (operandRRR_writesOne _ d a b s)⟩
  | div d a b =>
    by_cases zero : s.reg (effReg b) = 0
    · exact ⟨_, exec_div_of_eq_zero zero d a, .divides d a zero⟩
    · exact ⟨_, exec_div_of_ne_zero zero d a, .writes _ (operandRR_writesOne _ d a _).of_useField⟩
  | jmp d u m =>
    by_cases stays : m = .relative ∧ s.reg (effReg d) = 0
    · exact ⟨_, exec_jmp_of_stays u stays, .stays u stays⟩
    · exact ⟨_, exec_jmp_of_moves u stays, .jumps d u m⟩
  | hcl g f =>
    cases found : lookup g.toNat f.toNat s with
    | some c => exact ⟨_, exec_hcl_of_hit found, .calls found⟩
    | none => exact ⟨_, exec_hcl_of_miss found, .misses found⟩

section Effect
variable {i : Instr} {s t : State}

/-- `pos` is written by a jump only, and then inside the byte-code (R30, R161). -/
theorem ExecEffect.pos (effect : ExecEffect s i t) (countFits : Memory.wf s.byteCode = true) :
    t.pos = s.pos ∨ (∃ d u m, i = .jmp d u m) ∧ t.pos.toNat < s.byteCode.count := by
  cases effect with
  | halts | divides | stays => exact .inl (by simp)
  | writes _ w =>
    obtain ⟨-, -, pos, -⟩ := w
    exact .inl pos
  | misses => exact .inl (by split <;> simp)
  | calls hit => exact .inl (by unfold hcall; split <;> simp)
  | jumps d u m =>
    generalize jumpDest m s.pos (s.reg (effReg d)).toInt = target
    rcases jumpTo_cases target (useField d s) with ⟨nonneg, lt, taken⟩ | ⟨-, refused⟩
    · rw [useField_byteCode] at lt
      have fits := lt.trans (Int.ofNat_lt.mpr (of_decide_eq_true countFits))
      rw [← toNat_ofInt_of_lt nonneg fits] at lt
      rw [taken]
      exact .inr ⟨⟨d, u, m, rfl⟩, Int.ofNat_lt.mp lt⟩
    · exact .inl (by simp [refused])

/-- After an instruction of an engine that waited for nothing, a wait is for the callback that the ids look up, and the
status is as before (R182, R183). -/
theorem ExecEffect.pending (effect : ExecEffect s i t) (idle : s.pending = none) :
    t.pending = none ∨ ∃ q, t.pending = some q ∧ t.halted = s.halted ∧
      lookup q.groupId.toNat q.functionId.toNat s = some q.callback := by
  cases effect with
  | halts | divides | stays => exact .inl (by simp [idle])
  | writes _ w =>
    obtain ⟨-, -, -, -, -, -, -, -, pending, -⟩ := w
    exact .inl (pending.trans idle)
  | misses => exact .inl (by split <;> simp [idle])
  | jumps d u m =>
    generalize jumpDest m s.pos (s.reg (effReg d)).toInt = target
    rcases jumpTo_cases target (useField d s) with ⟨-, -, h⟩ | ⟨-, h⟩ <;> exact .inl (by simp [h, idle])
  | @calls g f c hit =>
    cases answers : s.answers with
    | nil =>
      rw [hcall_of_waits _ answers]
      exact .inr ⟨⟨c, g, f⟩, rfl, rfl, hit⟩
    | cons a rest =>
      rw [hcall_of_answered _ answers]
      exact .inl (by simp)

theorem mem_registerFaults {fs : List RegField} {c : Byte} (h : c ∈ registerFaults fs) : c = 0xFE := by
  obtain ⟨_, _, rfl⟩ := List.mem_map.mp h
  rfl

/-- The codes of R200. -/
def reservedCodes : List Byte := [0xFB, 0xFC, 0xFD, 0xFE, 0xFF]

/-- They are the codes that R201 reserves. -/
theorem reservedCode_of_mem : ∀ c ∈ reservedCodes, reservedCode c = true := by decide

/-- The state is left with the status of raising codes, each of them a reserved one (R201, R203). -/
def RaisesReserved (s t : State) : Prop :=
  ∃ codes : List Byte, t.halted = haltedAfter s codes ∧ t.exitCode = codeAfter s codes ∧
    ∀ c ∈ codes, c ∈ reservedCodes

/-- Register faults, and then at most one code more. -/
theorem RaisesReserved.of_status {fs : List RegField} {more : List Byte}
    (halted : t.halted = haltedAfter s (registerFaults fs ++ more))
    (code : t.exitCode = codeAfter s (registerFaults fs ++ more))
    (reserved : ∀ c ∈ more, c ∈ reservedCodes) : RaisesReserved s t := by
  refine ⟨_, halted, code, fun c hc => ?_⟩
  rcases List.mem_append.mp hc with fault | hmore
  · rw [mem_registerFaults fault]
    decide
  · exact reserved c hmore

theorem useField_raisesReserved (d : RegField) (s : State) : RaisesReserved s (useField d s) := by
  obtain ⟨halted, code⟩ := useField_status [d] s
  exact .of_status (fs := [d]) (more := []) (by simpa using halted) (by simpa using code) (by simp)

theorem haltWith_useField_raisesReserved {c : Byte} (reserved : c ∈ reservedCodes)
    (d : RegField) (s : State) : RaisesReserved s (haltWith c (useField d s)) := by
  refine .of_status (fs := [d]) (more := [c]) ?_ ?_ (by simpa using reserved)
  · rw [haltWith_halted_eq, haltedAfter_useField]
  · rw [haltWith_exitCode_eq, codeAfter_useField]

/-- An instruction raises reserved codes only, unless it is Halt-like, whose value is free (R103, R104, R201). -/
theorem ExecEffect.raises (effect : ExecEffect s i t) :
    (∃ d v, i ∈ [Instr.halt d v, .unassigned14 d v, .unassigned15 d v] ∧ t = haltWith v s) ∨ RaisesReserved s t := by
  cases effect with
  | halts d v code => exact .inl ⟨d, v, code, rfl⟩
  | @writes _ _ _ _ fs w =>
    obtain ⟨-, -, -, halted, code, -⟩ := w
    exact .inr (.of_status (fs := fs) (more := []) (by simpa using halted) (by simpa using code) (by simp))
  | @divides _ _ b _ => exact .inr (haltWith_useField_raisesReserved (by decide) b s)
  | @stays d _ _ _ => exact .inr (useField_raisesReserved d s)
  | jumps d u m =>
    generalize jumpDest m s.pos (s.reg (effReg d)).toInt = target
    rcases jumpTo_cases target (useField d s) with ⟨-, -, h⟩ | ⟨-, h⟩ <;> rw [h]
    · exact .inr (useField_raisesReserved d s)
    · exact .inr (haltWith_useField_raisesReserved (by decide) d s)
  | @calls g f c hit =>
    cases answers : s.answers with
    | nil =>
      rw [hcall_of_waits _ answers]
      exact .inr ⟨[], by simp, by simp, by simp⟩
    | cons a rest =>
      rw [hcall_of_answered _ answers]
      obtain ⟨halted, code⟩ := installAnswer_status ⟨c, g, f⟩ a rest s
      exact .inr ⟨_, halted, code, by split <;> decide⟩
  | misses =>
    split
    · exact .inr ⟨[0xFF], haltWith_halted_eq _ _, haltWith_exitCode_eq _ _, by decide⟩
    · exact .inr ⟨[], by simp, by simp, by simp⟩

/-- A running engine that raising codes has halted has one of them as its exit code. -/
theorem RaisesReserved.exitCode_mem (raised : RaisesReserved s t) (running : s.halted = false)
    (halted : t.halted = true) : t.exitCode ∈ reservedCodes := by
  obtain ⟨codes, haltedEq, codeEq, reserved⟩ := raised
  cases codes with
  | nil => simp [haltedEq, running] at halted
  | cons c rest => simpa [codeEq, codeAfter, running] using reserved c (by simp)

end Effect

/-- Every state has a step, by which of R215, R183 and R101 it meets. -/
theorem step_of_halted {s : State} (halted : s.halted = true) : step s = .next (hostMove s) := by
  rw [step, if_pos halted]

theorem step_of_pending {s : State} {q : HcallRequest} (inRun : s.halted = false) (waits : s.pending = some q) :
    step s = .next (resume q s) := by
  simp [step, inRun, waits]

theorem runInstr_eq_mapNext (s : State) :
    runInstr s = mapNext (retire (unpack (fetch s.byteCode s.pos)))
      (exec (decode (fetch s.byteCode s.pos)) (advance s)) := by
  unfold runInstr
  cases exec (decode (fetch s.byteCode s.pos)) (advance s) <;> rfl

theorem step_of_running {s : State} (running : Running s) :
    step s = mapNext (retire (unpack (fetch s.byteCode s.pos)))
      (exec (decode (fetch s.byteCode s.pos)) (advance s)) := by
  obtain ⟨inRun, idle⟩ := running
  rw [← runInstr_eq_mapNext]
  simp [step, inRun, idle]

/-- Settles O26: the fetch is the stored word, and the advance is the one of R30. -/
theorem stepRunsTheDecodedInstruction : Obligations.StepRunsTheDecodedInstruction := by
  intro s w inRun idle valid stored
  have next : s.pos + 1 = BitVec.ofNat 32 (s.pos.toNat + 1) := by simp [BitVec.ofNat_add]
  rw [step_of_running ⟨inRun, idle⟩, fetch_inside valid stored, advance, next]

/-- A step of a running engine, with the effect of its instruction. -/
theorem step_effect {s t : State} (running : Running s) (h : step s = .next t) :
    ∃ u, ExecFrame s u ∧ ExecEffect (advance s) (decode (fetch s.byteCode s.pos)) u ∧
      t = retire (unpack (fetch s.byteCode s.pos)) u := by
  obtain ⟨u, hu, effect⟩ := exec_effect (decode (fetch s.byteCode s.pos)) (advance s)
  rw [step_of_running running, hu] at h
  have advanced : ExecFrame s (advance s) := ⟨rfl, rfl, rfl, rfl, rfl, rfl, .inl ⟨rfl, rfl⟩⟩
  cases h
  exact ⟨u, advanced.trans (exec_execFrame hu), effect, rfl⟩

theorem step_next (s : State) : ∃ t, step s = .next t := by
  cases halted : s.halted with
  | true => exact ⟨_, step_of_halted halted⟩
  | false =>
    cases waits : s.pending with
    | some q => exact ⟨_, step_of_pending halted waits⟩
    | none =>
      obtain ⟨t, ht, -⟩ := exec_effect (decode (fetch s.byteCode s.pos)) (advance s)
      exact ⟨_, by rw [step_of_running ⟨halted, waits⟩, ht, mapNext]⟩

/-- Settles O28: `exec` by its effects, `step` by its three cases. -/
theorem everyStepHasNextState : Obligations.EveryStepHasNextState := by
  refine ⟨fun i s => ?_, step_next⟩
  obtain ⟨t, ht, -⟩ := exec_effect i s
  exact ⟨t, ht⟩

/-- Settles O29: what a jump or any other instruction leaves in `pos`. -/
theorem onlyJumpRedirectsPos : Obligations.OnlyJumpRedirectsPos := by
  intro s t countFits running h
  obtain ⟨u, -, effect, rfl⟩ := step_effect running h
  rw [retire_pos]
  exact effect.pos countFits

/-- Settles O32: what an instruction raises. -/
theorem everyHaltHasACause : Obligations.EveryHaltHasACause := by
  intro s t running h halted
  obtain ⟨u, -, effect, rfl⟩ := step_effect running h
  obtain ⟨inRun, -⟩ := running
  rw [retire_halted] at halted
  rw [retire_exitCode]
  rcases effect.raises with ⟨d, v, code, rfl⟩ | raised
  · exact .inl ⟨d, v, code, by simp [haltWith_exitCode, inRun]⟩
  · have mem := raised.exitCode_mem inRun halted
    exact .inr ⟨reservedCode_of_mem _ mem, mem⟩

/-- Settles O34: the event that the end of an instruction emits. -/
theorem oneTraceEventPerInstruction : Obligations.OneTraceEventPerInstruction := by
  intro s t running h
  obtain ⟨u, frame, -, rfl⟩ := step_effect running h
  rw [retire_trace, retire_pending, retire_x, frame.trace, frame.params]
  cases u.pending <;> cases s.params.traceEnable <;> simp

/-- The wait of R183, with or without an answer. -/
theorem resume_of_waits {s : State} (q : HcallRequest) (waits : s.answers = []) : resume q s = s := by
  simp only [resume, waits]

theorem resume_of_answered {s : State} (q : HcallRequest) {a : HcallAnswer} {rest : List HcallAnswer}
    (answered : s.answers = a :: rest) : resume q s = retire q.decoded (installAnswer q a rest s) := by
  simp only [resume, answered]

/-- A step in a run: the engine goes on waiting, or it comes to the end of `retire` from a state with the frame of an
instruction, and a wait there is inside the run and for a callback that is looked up. -/
theorem step_in_run {s t : State} (inRun : s.halted = false) (h : step s = .next t) :
    t = s ∨ ∃ d u, t = retire d u ∧ ExecFrame s u ∧
      ∀ q, u.pending = some q → u.halted = false ∧ lookup q.groupId.toNat q.functionId.toNat s = some q.callback := by
  cases waits : s.pending with
  | some q =>
    rw [step_of_pending inRun waits] at h
    cases h
    cases answers : s.answers with
    | nil => exact .inl (resume_of_waits q answers)
    | cons a rest =>
      rw [resume_of_answered q answers]
      refine .inr ⟨_, _, rfl, hcall_of_answered q answers ▸ hcall_execFrame q s, by simp⟩
  | none =>
    obtain ⟨u, frame, effect, rfl⟩ := step_effect ⟨inRun, waits⟩ h
    refine .inr ⟨_, u, rfl, frame, fun q hq => ?_⟩
    rcases effect.pending waits with none_eq | ⟨q', some_eq, halted, hit⟩
    · simp [none_eq] at hq
    · obtain rfl : q' = q := by simpa [some_eq] using hq
      exact ⟨halted.trans inRun, hit⟩

/-- Settles O30: the frame of an instruction, which the end of the instruction keeps. -/
theorem runKeepsProgramAndTable : Obligations.RunKeepsProgramAndTable := by
  intro s t inRun h
  rcases step_in_run inRun h with rfl | ⟨d, u, rfl, frame, -⟩
  · exact ⟨rfl, rfl, rfl, rfl⟩
  · simp [frame.byteCode, frame.slots, frame.params, frame.commands]

/-- Settles O31: the status of an instruction changes only by halting. -/
theorem exitCodeChangesOnlyWithHalt : Obligations.ExitCodeChangesOnlyWithHalt := by
  intro s t inRun h stillRuns
  rcases step_in_run inRun h with rfl | ⟨d, u, rfl, frame, -⟩
  · rfl
  · rw [retire_halted] at stillRuns
    rw [retire_exitCode]
    rcases frame.status with ⟨-, kept⟩ | ⟨-, halts⟩
    · exact kept
    · simp [stillRuns] at halts

/-- Settles O33: `retire` tests `halted`, and no halted engine waits. -/
theorem runEndReturnsExitCode : Obligations.RunEndReturnsExitCode := by
  intro s t inRun h
  rcases step_in_run inRun h with rfl | ⟨d, u, rfl, frame, waitsInRun⟩
  · simp [inRun, State.regObs]
  · rw [retire_replies, frame.replies]
    refine ⟨fun ended => ?_, fun goesOn => ?_⟩
    · rw [retire_halted] at ended
      have done : u.pending = none :=
        Option.eq_none_iff_forall_ne_some.mpr fun q hq => by simpa [ended] using (waitsInRun q hq).1
      simp [done, ended, State.regObs]
    · rw [retire_halted] at goesOn
      simp [goesOn, State.regObs]

end Sys2Proof.Machine
end

section
/-! The halted engine and the host (45_hostcall R186, R187; 60_exceptions R215; 70_reset R230 to R233), the end of an
instruction as one record update (40_dispatch R105, R106), and the invariant; from these the statements O27 and O36 to
O44. -/

namespace Sys2Proof.Machine

section HostRequests
variable {s : State}

theorem hostMove_of_no_command (none_posted : s.commands = []) : hostMove s = s := by
  simp only [hostMove, none_posted]

theorem hostMove_of_command {c : HostCmd} {rest : List HostCmd} (posted : s.commands = c :: rest) :
    hostMove s = perform c { s with commands := rest } := by
  simp only [hostMove, posted]

/-- The step of a halted engine with a request performs it (R100). -/
theorem step_perform {c : HostCmd} {rest : List HostCmd} (halted : s.halted = true) (posted : s.commands = c :: rest) :
    step s = .next (perform c { s with commands := rest }) := by
  rw [step_of_halted halted, hostMove_of_command posted]

/-- A registration out of range (R186). -/
theorem step_register_outOfRange {c : CallbackId} {g f : Nat} {rest : List HostCmd} (halted : s.halted = true)
    (posted : s.commands = .register c g f :: rest) (outside : idInRange g f s.params.hcCapacity = false) :
    step s = .next { s with commands := rest, replies := s.replies ++ [.registered .outOfRange] } := by
  rw [step_perform halted posted]
  simp [perform, registerCallback, outside]

/-- A registration in range: the slot is written, and the reply says if it was occupied (R186). -/
theorem step_register_inRange {c : CallbackId} {g f : Nat} {rest : List HostCmd} (halted : s.halted = true)
    (posted : s.commands = .register c g f :: rest) (inside : idInRange g f s.params.hcCapacity = true) :
    step s = .next { s with
      slots := setSlot s.slots (packedId g f) c, commands := rest,
      replies := s.replies ++
        [.registered (if (slotAt s.slots (packedId g f)).isSome then .overwritten else .ok)] } := by
  rw [step_perform halted posted]
  cases held : slotAt s.slots (packedId g f) <;> simp [perform, registerCallback, inside, held]

end HostRequests

/-- Settles O37: `construct` field by field; the table is empty. -/
theorem constructionValues : Obligations.ConstructionValues := by
  exact ⟨fun p bc => ⟨rfl, rfl, fun j => zero_reg j j.isLt, rfl, fun _ _ => rfl, rfl, rfl⟩,
    Config.resetParams, ByteCode.unbound, rfl, Nat.le_add_left 1 _, Config.hcCapacityPred.isLt, rfl, rfl⟩

/-- Settles O38: the request is taken, then the run starts. -/
theorem runStartClears : Obligations.RunStartClears := fun _ _ halted posted =>
  ⟨_, step_perform halted posted, rfl, rfl, fun j => zero_reg j j.isLt, rfl, rfl, rfl, rfl, rfl, rfl, rfl, rfl, rfl,
    rfl⟩

/-- Settles O39: the request is taken, then the byte-code is bound. -/
theorem bindingResetsPosOnly : Obligations.BindingResetsPosOnly := fun _ _ _ => step_perform

/-- What a written table lists. -/
theorem mem_setSlot_iff {l : List (Nat × CallbackId)} (form : l.Pairwise (fun p q => p.1 < q.1)) (id : Nat)
    (c : CallbackId) (k : Nat) (c' : CallbackId) :
    (k, c') ∈ setSlot l id c ↔ if k = id then c' = c else (k, c') ∈ l := by
  rw [← slotAt_eq_some_iff (pairwise_setSlot l id c form), slotAt_setSlot l id c k form]
  by_cases hk : k = id
  · simp [hk, eq_comm]
  · simp [hk, Ne.symm hk, slotAt_eq_some_iff form]

/-- Settles O40: the registration in and out of range, with the slot read and written as the table lists it. -/
theorem registrationSetsOneSlot : Obligations.RegistrationSetsOneSlot := by
  intro s c g f rest halted posted form id
  have rising := HostTable.wf_pairwise form
  refine ⟨fun outside => ?_, fun inside => ?_⟩
  · refine step_register_outOfRange halted posted (Bool.eq_false_iff.mpr fun h => ?_)
    obtain ⟨hg, hf, hid⟩ := (idInRange_iff g f _).mp h
    omega
  · refine ⟨_, _, step_register_inRange halted posted ((idInRange_iff g f _).mpr inside), ?_,
      mem_setSlot_iff rising id c⟩
    cases held : slotAt s.slots (packedId g f) with
    | none =>
      refine .inl ⟨rfl, fun c' listed => ?_⟩
      rw [← slotAt_eq_some_iff rising] at listed
      exact absurd (held.symm.trans listed) (by simp)
    | some c' => exact .inr ⟨rfl, c', (slotAt_eq_some_iff rising _ _).mp held⟩

/-- Settles O41: two registrations in range at one id; the table then holds the second callback there. -/
theorem overwriteDispatchesSecondOnly : Obligations.OverwriteDispatchesSecondOnly := by
  intro s c₁ c₂ g f rest halted form below posted
  have inside : idInRange g.toNat f.toNat s.params.hcCapacity = true :=
    (idInRange_iff _ _ _).mpr ⟨Nat.le_of_lt_succ g.isLt, Nat.le_of_lt_succ f.isLt, below⟩
  have rising := HostTable.wf_pairwise form
  have rising₁ := pairwise_setSlot s.slots (packedId g.toNat f.toNat) c₁ rising
  have first : slotAt (setSlot s.slots (packedId g.toNat f.toNat) c₁) (packedId g.toNat f.toNat) = some c₁ := by
    rw [slotAt_setSlot _ _ _ _ rising, if_pos rfl]
  refine ⟨_, _, step_register_inRange halted posted inside,
    step_register_inRange (g := g.toNat) (f := f.toNat) halted rfl inside, by simp [first], fun v slots params => ?_⟩
  have hit : lookup g.toNat f.toNat v = some c₂ := by
    have second : slotAt v.slots (packedId g.toNat f.toNat) = some c₂ := by
      rw [slots, slotAt_setSlot _ _ _ _ rising₁, if_pos rfl]
    simp only [lookup, second, params, inside, if_true]
  rw [exec_hcl_of_hit hit]
  refine ⟨fun waits => by rw [hcall_of_waits _ waits], fun a later answered => ?_⟩
  rw [hcall_of_answered _ answered]
  exact ⟨_, rfl, by simp, by simp, by simp⟩

/-- A registration changes the table and the replies only, and keeps the table's form (R186). -/
theorem perform_register (c : CallbackId) (g f : Nat) (s : State) :
    ∃ slots r, perform (.register c g f) s = { s with slots := slots, replies := s.replies ++ [.registered r] } ∧
      (HostTable.wf s.params.hcCapacity s.slots = true → HostTable.wf s.params.hcCapacity slots = true) := by
  rcases registerCallback_cases c g f s with ⟨-, h⟩ | ⟨inside, -, h⟩ | ⟨_, inside, -, h⟩ <;>
    simp only [perform, h]
  · exact ⟨_, _, rfl, id⟩
  all_goals
    obtain ⟨-, -, below⟩ := (idInRange_iff g f _).mp inside
    exact ⟨_, _, rfl, fun form => setSlot_wf _ c form below⟩

/-- Settles O42: each of the three requests, and none. -/
theorem onlyRunLeavesHalted : Obligations.OnlyRunLeavesHalted := by
  intro s t halted h
  cases posted : s.commands with
  | nil =>
    rw [step_of_halted halted, hostMove_of_no_command posted] at h
    cases h
    simp [halted]
  | cons c rest =>
    rw [step_perform halted posted] at h
    cases h
    cases c with
    | bind bc => simp [perform, bindByteCode, halted]
    | register cb g f =>
      obtain ⟨slots, r, registered, -⟩ := perform_register cb g f { s with commands := rest }
      rw [registered]
      simp [halted]
    | run => simp [perform]

section Invariant
variable {s : State}

theorem pendingOk_of_none (idle : s.pending = none) : pendingOk s = true := by simp [pendingOk, idle]

/-- A halted engine in the invariant waits for nothing (R183). -/
theorem pending_eq_none (inv : pendingOk s = true) (halted : s.halted = true) : s.pending = none :=
  Option.eq_none_iff_forall_ne_some.mpr fun q hq => by simpa [halted] using ((pendingOk_iff s).mp inv q hq).1

/-- The lookup reads the table and the parameters (R185). -/
theorem lookup_congr {t : State} (slots : t.slots = s.slots) (params : t.params = s.params) (g f : Nat) :
    lookup g f t = lookup g f s := by
  rw [lookup, lookup, slots, params]

/-- Each request of the host keeps the invariant of a halted engine. -/
theorem perform_keeps_inv {c : HostCmd} (inv : Inv s) (halted : s.halted = true) (wf : c.wf = true) :
    Inv (perform c s) := by
  obtain ⟨params, memory, commands, table, pending⟩ := inv
  have idle := pending_eq_none pending halted
  cases c with
  | bind bc => exact ⟨params, wf, commands, table, pendingOk_of_none idle⟩
  | register cb g f =>
    obtain ⟨slots, r, registered, keeps⟩ := perform_register cb g f s
    rw [registered]
    exact ⟨params, memory, commands, keeps table, pendingOk_of_none idle⟩
  | run => exact ⟨params, memory, commands, table, pendingOk_of_none idle⟩

theorem hostMove_keeps_inv (inv : Inv s) (halted : s.halted = true) : Inv (hostMove s) := by
  cases posted : s.commands with
  | nil => rwa [hostMove_of_no_command posted]
  | cons c rest =>
    obtain ⟨params, memory, commands, table, pending⟩ := inv
    obtain ⟨first, others⟩ : c.wf = true ∧ rest.all HostCmd.wf = true := by simpa [posted] using commands
    rw [hostMove_of_command posted]
    exact perform_keeps_inv ⟨params, memory, others, table, pending⟩ halted first

/-- A wait after a step in a run is inside the run and for a callback of the table (R182, R183). -/
theorem step_keeps_pendingOk {t : State} (inv : pendingOk s = true) (inRun : s.halted = false)
    (h : step s = .next t) : pendingOk t = true := by
  rcases step_in_run inRun h with rfl | ⟨d, u, rfl, frame, waitsInRun⟩
  · exact inv
  · refine (pendingOk_iff _).mpr fun q hq => ?_
    rw [retire_pending] at hq
    rw [retire_halted, lookup_congr (s := s) (by rw [retire_slots, frame.slots]) (by rw [retire_params, frame.params])]
    exact waitsInRun q hq

end Invariant

/-- Settles O43: a halted engine performs requests; in a run only the wait is to be shown, for the rest of what the
invariant speaks of is constant (O30). -/
theorem stepKeepsInvariant : Obligations.StepKeepsInvariant := by
  intro s t inv h
  cases halted : s.halted with
  | true =>
    rw [step_of_halted halted] at h
    cases h
    exact hostMove_keeps_inv inv halted
  | false =>
    obtain ⟨params, memory, commands, table, pending⟩ := inv
    obtain ⟨byteCode_eq, slots_eq, params_eq, commands_eq⟩ := runKeepsProgramAndTable s t halted h
    have pending' := step_keeps_pendingOk pending halted h
    rw [Inv, byteCode_eq, slots_eq, params_eq, commands_eq]
    exact ⟨params, memory, commands, table, pending'⟩

theorem resetParams_wf : Config.resetParams.wf = true := by
  have lower : 1 ≤ Config.hcCapacity := Nat.le_add_left 1 _
  have upper : Config.hcCapacity ≤ 4096 := Config.hcCapacityPred.isLt
  simp [Params.wf, Config.resetParams, lower, upper]

/-- What a construction leaves is in the invariant: no table, no request, no wait. -/
theorem construct_inv {p : Params} {bc : ByteCode} (params : p.wf = true) (memory : Memory.wf bc = true) :
    Inv (State.construct p bc) :=
  ⟨params, memory, rfl, rfl, rfl⟩

/-- Settles O44: `State.reset` is a construction with parameters in range. -/
theorem constructionMeetsInvariant : Obligations.ConstructionMeetsInvariant :=
  ⟨fun _ _ => construct_inv, construct_inv resetParams_wf reset_memory_wf⟩

/-- The trace hook and the end of a run as record updates (R106, R218). -/
theorem emitTrace_eq_update (d : DecodedInstruction) (s : State) : emitTrace d s =
    { s with trace := s.trace ++ (if s.params.traceEnable then [⟨d, s.x⟩] else []) } := by
  unfold emitTrace
  split <;> simp

theorem endOfRun_eq_update (s : State) : endOfRun s =
    { s with replies := s.replies ++ (if s.halted then [.exited s.exitCode] else []) } := by
  unfold endOfRun
  split <;> simp

/-- The end of an instruction that waits for nothing, as one record update. -/
theorem retire_of_done (d : DecodedInstruction) {s : State} (done : s.pending = none) :
    retire d s = { s with
      trace := s.trace ++ (if s.params.traceEnable then [⟨d, s.x⟩] else []),
      replies := s.replies ++ (if s.halted then [.exited s.exitCode] else []) } := by
  rw [retire, if_neg (by simp [done]), emitTrace_eq_update, endOfRun_eq_update]

/-- Settles O27: the synthetic word is Halt with value 0. -/
theorem runningOffTheEndExitsZero : Obligations.RunningOffTheEndExitsZero := by
  intro s running outside
  obtain ⟨inRun, idle⟩ := running
  have halts : exec (decode 0x0000) (advance s) = .next (haltWith 0 (advance s)) := rfl
  rw [step_of_running ⟨inRun, idle⟩, fetch_outside outside, halts, haltWith_of_running 0 (s := advance s) inRun]
  exact congrArg Host.Outcome.next (retire_of_done _ idle)

/-- The answer of a running engine as one record update (R183, R184). -/
theorem installAnswer_of_running (q : HcallRequest) (a : HcallAnswer) (rest : List HcallAnswer) {s : State}
    (inRun : s.halted = false) : installAnswer q a rest s = { s with
      x := a.regs, pending := none, answers := rest, exchanges := s.exchanges ++ [⟨q, s.x, a⟩],
      halted := a.haltReq, exitCode := if a.haltReq then 0xFB else s.exitCode } := by
  cases asked : a.haltReq <;> simp [installAnswer, haltWith, codeHaltRequested, asked, inRun]

/-- A run of one step more, for any machine. -/
theorem run_succ (M : Host.Core) {s t : M.State} (h : M.step s = .next t) (k : Nat) : M.run (k + 1) s = M.run k t := by
  rw [Host.Core.run, h]

theorem core_run_succ {s t : State} (h : step s = .next t) (k : Nat) :
    Sys2Proof.core.run (k + 1) s = Sys2Proof.core.run k t :=
  run_succ Sys2Proof.core h k

/-- A state that steps to itself is what any number of steps leaves. -/
theorem core_run_of_fixed {s : State} (fixed : step s = .next s) (k : Nat) : Sys2Proof.core.run k s = .next s := by
  induction k with
  | zero => rfl
  | succ k ih => rw [core_run_succ fixed, ih]

/-- Settles O36: no answer is a fixed point of `step`; an answer ends the CallHost. -/
theorem waitEndsOnlyWithTheAnswer : Obligations.WaitEndsOnlyWithTheAnswer := by
  intro s q inRun waits
  refine ⟨fun unanswered => core_run_of_fixed ?_, fun a rest answered => ?_⟩
  · rw [step_of_pending inRun waits, resume_of_waits q unanswered]
  · rw [step_of_pending inRun waits, resume_of_answered q answered, retire_of_done _ (by simp),
      installAnswer_of_running q a rest inRun]
    cases asked : a.haltReq <;> rfl

end Sys2Proof.Machine
end

section
/-! Noninterference (60_exceptions R218, 70_reset R232): `State.hide` covers the record of the ports, the trace hook,
or both with one erasure, no operation reads what it erases, and so no step does; from this the statements O35, O45 and
O46. -/

namespace Sys2Proof.Machine

/-- The state with the events erased, and with the rest of the record of the ports (`ports`) or the enable bit of the
trace hook (`hook`) erased as well. -/
def State.hide (ports hook : Bool) (s : State) : State :=
  { s with
    params := { s.params with traceEnable := bif hook then false else s.params.traceEnable }
    replies := bif ports then [] else s.replies
    exchanges := bif ports then [] else s.exchanges
    trace := [] }

/-- The two erasures that the statements speak of. -/
theorem forgetRecord_eq_hide : State.forgetRecord = State.hide true false := rfl
theorem untraced_eq_hide : State.untraced = State.hide false true := rfl

section Hide
variable {p h : Bool} {s : State}

@[simp] theorem hide_hide : (s.hide p h).hide p h = s.hide p h := by cases p <;> cases h <;> rfl
@[simp] theorem hide_reg (r : Fin 13) : (s.hide p h).reg r = s.reg r := rfl
@[simp] theorem hide_pos : (s.hide p h).pos = s.pos := rfl
@[simp] theorem hide_strictHostcall : (s.hide p h).params.strictHostcall = s.params.strictHostcall := rfl
@[simp] theorem setReg_hide (r : Fin 13) (v : Word) : (s.hide p h).setReg r v = (s.setReg r v).hide p h := rfl

@[simp] theorem haltWith_hide (c : Byte) : haltWith c (s.hide p h) = (haltWith c s).hide p h := by
  cases halted : s.halted with
  | true => rw [haltWith_of_halted c halted, haltWith_of_halted c (s := s.hide p h) halted]
  | false => rw [haltWith_of_running c halted, haltWith_of_running c (s := s.hide p h) halted]; rfl

@[simp] theorem useField_hide (i : RegField) : useField i (s.hide p h) = (useField i s).hide p h := by
  unfold useField
  split
  · exact haltWith_hide _
  · rfl

@[simp] theorem operandL8_hide (d : RegField) (v : Byte) :
    operandL8 d v (s.hide p h) = (operandL8 d v s).hide p h := by
  simp [operandL8, wr_eq]

@[simp] theorem operandRR_hide (f : Word → Word) (d a : RegField) :
    operandRR f d a (s.hide p h) = (operandRR f d a s).hide p h := by
  simp [operandRR, wr_eq, rd_eq]

@[simp] theorem operandR_hide (f : Word → Word) (d : RegField) :
    operandR f d (s.hide p h) = (operandR f d s).hide p h := operandRR_hide f d d

@[simp] theorem operandRRR_hide (f : Word → Word → Word) (d a b : RegField) :
    operandRRR f d a b (s.hide p h) = (operandRRR f d a b s).hide p h := by
  simp [operandRRR, wr_eq, rd_eq]

@[simp] theorem jumpTo_hide (t : Int) : jumpTo t (s.hide p h) = (jumpTo t s).hide p h := by
  by_cases inside : 0 ≤ t ∧ t < (s.byteCode.count : Int)
  · rw [jumpTo, jumpTo, if_pos inside, if_pos (show 0 ≤ t ∧ t < ((s.hide p h).byteCode.count : Int) from inside)]
    rfl
  · rw [jumpTo, jumpTo, if_neg inside, if_neg (show ¬(0 ≤ t ∧ t < ((s.hide p h).byteCode.count : Int)) from inside)]
    exact haltWith_hide _

/-- The answer extends the record, erased or not. -/
theorem installAnswer_hide (q : HcallRequest) (a : HcallAnswer) (rest : List HcallAnswer) :
    (installAnswer q a rest (s.hide p h)).hide p h = (installAnswer q a rest s).hide p h := by
  unfold installAnswer
  cases a.haltReq
  · cases p <;> cases h <;> rfl
  · simp only [if_true, ← haltWith_hide]
    cases p <;> cases h <;> rfl

theorem hcall_hide (q : HcallRequest) : (hcall q (s.hide p h)).hide p h = (hcall q s).hide p h := by
  cases answers : s.answers with
  | nil =>
    rw [hcall_of_waits q answers, hcall_of_waits q (s := s.hide p h) answers]
    cases p <;> cases h <;> rfl
  | cons a rest =>
    rw [hcall_of_answered q answers, hcall_of_answered q (s := s.hide p h) answers]
    exact installAnswer_hide q a rest

/-- An operation that commutes with the erasure does not show it. -/
theorem mapNext_hide_of_eq {t u : State} (commutes : u = t.hide p h) :
    mapNext (State.hide p h) (.next u) = mapNext (State.hide p h) (.next t) := by
  rw [commutes, mapNext, hide_hide, mapNext]

/-- No instruction reads what is erased. -/
theorem exec_hide (i : Instr) :
    mapNext (State.hide p h) (exec i (s.hide p h)) = mapNext (State.hide p h) (exec i s) := by
  cases i with
  | halt d v | unassigned14 d v | unassigned15 d v => exact mapNext_hide_of_eq (haltWith_hide v)
  | set d v => exact mapNext_hide_of_eq (operandL8_hide d v)
  | cpy d a b => exact mapNext_hide_of_eq (operandRR_hide id d a)
  | inv d v => exact mapNext_hide_of_eq (operandR_hide _ d)
  | add d a b | sub d a b | mul d a b | eql d a b | neq d a b | gre d a b | les d a b =>
    exact mapNext_hide_of_eq (operandRRR_hide _ d a b)
  | div d a b =>
    by_cases zero : s.reg (effReg b) = 0
    · rw [exec_div_of_eq_zero zero, exec_div_of_eq_zero (s := s.hide p h) zero]
      exact mapNext_hide_of_eq (by simp)
    · rw [exec_div_of_ne_zero zero, exec_div_of_ne_zero (s := s.hide p h) zero]
      exact mapNext_hide_of_eq (by simp)
  | jmp d u m =>
    by_cases stays : m = .relative ∧ s.reg (effReg d) = 0
    · rw [exec_jmp_of_stays u stays, exec_jmp_of_stays u (s := s.hide p h) stays]
      exact mapNext_hide_of_eq (useField_hide d)
    · rw [exec_jmp_of_moves u stays, exec_jmp_of_moves u (s := s.hide p h) stays]
      exact mapNext_hide_of_eq (by simp)
  | hcl g f =>
    cases found : lookup g.toNat f.toNat s with
    | some c =>
      rw [exec_hcl_of_hit found, exec_hcl_of_hit (s := s.hide p h) found]
      exact congrArg Host.Outcome.next (hcall_hide _)
    | none =>
      rw [exec_hcl_of_miss found, exec_hcl_of_miss (s := s.hide p h) found]
      exact mapNext_hide_of_eq (by rw [hide_strictHostcall, haltWith_hide, ← apply_ite (State.hide p h)])

/-- The end of an instruction reads the status, and extends what is erased. -/
theorem retire_hide (d : DecodedInstruction) : (retire d (s.hide p h)).hide p h = (retire d s).hide p h := by
  cases waits : s.pending with
  | some q =>
    have still : retire d s = s := by rw [retire, if_pos (by simp [waits])]
    have still' : retire d (s.hide p h) = s.hide p h := by rw [retire, if_pos (by simp [State.hide, waits])]
    rw [still, still', hide_hide]
  | none =>
    rw [retire_of_done d waits, retire_of_done d (s := s.hide p h) waits]
    cases p <;> cases h <;> rfl

theorem mapNext_retire_hide (d : DecodedInstruction) (o : Host.Outcome State Fault Refusal) :
    mapNext (State.hide p h) (mapNext (retire d) (mapNext (State.hide p h) o)) =
      mapNext (State.hide p h) (mapNext (retire d) o) := by
  cases o with
  | next t => exact congrArg Host.Outcome.next (retire_hide d)
  | fault | refused => rfl

theorem resume_hide (q : HcallRequest) : (resume q (s.hide p h)).hide p h = (resume q s).hide p h := by
  cases answers : s.answers with
  | nil => rw [resume_of_waits q answers, resume_of_waits q (s := s.hide p h) answers, hide_hide]
  | cons a rest =>
    rw [resume_of_answered q answers, resume_of_answered q (s := s.hide p h) answers, ← retire_hide,
      installAnswer_hide, retire_hide]

theorem registerCallback_hide (c : CallbackId) (g f : Nat) : registerCallback c g f (s.hide p h) =
    ((registerCallback c g f s).1, (registerCallback c g f s).2.hide p h) := by
  cases inside : idInRange g f s.params.hcCapacity <;> cases held : slotAt s.slots (packedId g f) <;>
    simp [registerCallback, State.hide, inside, held]

theorem perform_hide (c : HostCmd) : (perform c (s.hide p h)).hide p h = (perform c s).hide p h := by
  cases c with
  | bind | run => cases p <;> cases h <;> rfl
  | register cb g f =>
    simp only [perform, registerCallback_hide]
    cases p <;> cases h <;> rfl

theorem hostMove_hide : (hostMove (s.hide p h)).hide p h = (hostMove s).hide p h := by
  cases posted : s.commands with
  | nil => rw [hostMove_of_no_command posted, hostMove_of_no_command (s := s.hide p h) posted, hide_hide]
  | cons c rest =>
    rw [hostMove_of_command posted, hostMove_of_command (s := s.hide p h) posted]
    exact perform_hide (s := { s with commands := rest }) c

/-- No step reads what is erased. -/
theorem step_hide : mapNext (State.hide p h) (step (s.hide p h)) = mapNext (State.hide p h) (step s) := by
  cases halted : s.halted with
  | true =>
    rw [step_of_halted halted, step_of_halted (s := s.hide p h) halted]
    exact congrArg Host.Outcome.next hostMove_hide
  | false =>
    cases waits : s.pending with
    | some q =>
      rw [step_of_pending halted waits, step_of_pending (s := s.hide p h) halted waits]
      exact congrArg Host.Outcome.next (resume_hide q)
    | none =>
      have same : mapNext (State.hide p h) (exec (decode (fetch s.byteCode s.pos)) (advance (s.hide p h))) =
          mapNext (State.hide p h) (exec (decode (fetch s.byteCode s.pos)) (advance s)) :=
        exec_hide (s := advance s) _
      rw [step_of_running ⟨halted, waits⟩, step_of_running (s := s.hide p h) ⟨halted, waits⟩, ← mapNext_retire_hide,
        ← mapNext_retire_hide _ (exec _ (advance s)), ← same]
      rfl

end Hide

/-- Settles O45: the record is one of the erasures. -/
theorem recordHasNoEffect : Obligations.RecordHasNoEffect := by
  intro s t alike
  calc mapNext State.forgetRecord (step s)
      = mapNext State.forgetRecord (step s.forgetRecord) := by rw [forgetRecord_eq_hide, step_hide]
    _ = mapNext State.forgetRecord (step t.forgetRecord) := by rw [alike]
    _ = mapNext State.forgetRecord (step t) := by rw [forgetRecord_eq_hide, step_hide]

/-- The host's requests keep the parameters and the events. -/
theorem hostMove_params_trace (s : State) : (hostMove s).params = s.params ∧ (hostMove s).trace = s.trace := by
  cases posted : s.commands with
  | nil => rw [hostMove_of_no_command posted]; exact ⟨rfl, rfl⟩
  | cons c rest =>
    rw [hostMove_of_command posted]
    cases c with
    | bind | run => exact ⟨rfl, rfl⟩
    | register cb g f =>
      obtain ⟨slots, r, registered, -⟩ := perform_register cb g f { s with commands := rest }
      rw [registered]
      exact ⟨rfl, rfl⟩

/-- With the hook off, a step keeps it off and emits nothing (R218). -/
theorem step_of_hook_off {s t : State} (off : s.params.traceEnable = false) (h : step s = .next t) :
    t.params.traceEnable = false ∧ t.trace = s.trace := by
  cases halted : s.halted with
  | true =>
    rw [step_of_halted halted] at h
    cases h
    obtain ⟨params, trace⟩ := hostMove_params_trace s
    exact ⟨by rw [params, off], trace⟩
  | false =>
    rcases step_in_run halted h with rfl | ⟨d, u, rfl, frame, -⟩
    · exact ⟨off, rfl⟩
    · rw [retire_params, retire_trace, frame.params, frame.trace]
      simp [off]

/-- A state with the hook off and no events is its own untraced form. -/
theorem untraced_eq_self {s : State} (off : s.params.traceEnable = false) (empty : s.trace = []) : s.untraced = s := by
  rw [State.untraced, ← off, ← empty]

/-- Settles O35: a step does not read the hook (`step_hide`), and with the hook removed it leaves it removed. -/
theorem traceHookChangesNothing : Obligations.TraceHookChangesNothing := by
  intro s
  obtain ⟨t, ht⟩ := step_next s.untraced
  obtain ⟨off, trace⟩ := step_of_hook_off (s := s.untraced) rfl ht
  calc step s.untraced
      = mapNext State.untraced (step s.untraced) := by rw [ht, mapNext, untraced_eq_self off trace]
    _ = mapNext State.untraced (step s) := by rw [untraced_eq_hide, step_hide]

/-- Alike states have alike runs. -/
theorem core_run_forgetRecord (k : Nat) {s t : State} (alike : s.forgetRecord = t.forgetRecord) :
    mapNext State.forgetRecord (Sys2Proof.core.run k s) = mapNext State.forgetRecord (Sys2Proof.core.run k t) := by
  induction k generalizing s t with
  | zero => exact congrArg Host.Outcome.next alike
  | succ k ih =>
    obtain ⟨s', hs⟩ := step_next s
    obtain ⟨t', ht⟩ := step_next t
    have alike' := recordHasNoEffect s t alike
    rw [hs, ht] at alike'
    rw [core_run_succ hs, core_run_succ ht]
    exact ih (Host.Outcome.next.inj alike')

/-- Settles O46: the starts of the two runs are alike. -/
theorem runIgnoresEarlierRuns : Obligations.RunIgnoresEarlierRuns := by
  intro s t rest sHalted tHalted sPosted tPosted byteCode params slots answers sIdle tIdle k
  rw [core_run_succ (step_perform sHalted sPosted), core_run_succ (step_perform tHalted tPosted)]
  apply core_run_forgetRecord
  simp [perform, runStart, State.forgetRecord, byteCode, params, slots, answers, sIdle, tIdle]

end Sys2Proof.Machine
end

section
/-! The byte-code file (20_memory R57): what a reader finds behind the magic tag of a written file, and that the count
and the words read back; from these the statements O47 and O48. -/

namespace Sys2Proof.Machine

/-- The words of a body read back (R57). -/
theorem bodyWords_flatMap (ws : List RawInstr) : bodyWords (ws.flatMap wordBytes) = some ws := by
  induction ws with
  | nil => rfl
  | cons w ws ih =>
    have word : w.extractLsb' 8 8 ++ w.extractLsb' 0 8 = w := BitVec.extractLsb'_append_extractLsb'
    calc bodyWords ((w :: ws).flatMap wordBytes)
        = (bodyWords (ws.flatMap wordBytes)).map ((w.extractLsb' 8 8 ++ w.extractLsb' 0 8) :: ·) := rfl
      _ = some (w :: ws) := by rw [ih, word, Option.map_some]

/-- The four bytes of a count join to it: first the high ones, then each lower one. -/
theorem countBytes_append (n : BitVec 32) :
    n.extractLsb' 24 8 ++ n.extractLsb' 16 8 ++ n.extractLsb' 8 8 ++ n.extractLsb' 0 8 = n := by
  have high : n.extractLsb' 24 8 ++ n.extractLsb' 16 8 = n.extractLsb' 16 16 :=
    BitVec.extractLsb'_append_extractLsb'_eq_extractLsb' rfl
  have upper : n.extractLsb' 16 16 ++ n.extractLsb' 8 8 = n.extractLsb' 8 24 :=
    BitVec.extractLsb'_append_extractLsb'_eq_extractLsb' rfl
  rw [high, upper]
  exact BitVec.extractLsb'_append_extractLsb'

theorem writeFile_eq (p : FileParams) (ws : List RawInstr) : writeFile p ws =
    p.magic ++ p.version :: (countBytes (BitVec.ofNat 32 ws.length) ++ ws.flatMap wordBytes) := by
  simp [writeFile]

/-- A reader tests a tag of its own length, and then reads what stands behind it (R57). -/
theorem readFile_append (p : FileParams) {magic : List Byte} (length : p.magic.length = magic.length)
    (rest : List Byte) :
    readFile p (magic ++ rest) = if magic = p.magic then readBody p rest else .error .badMagic := by
  rw [readFile, length, List.take_left, List.drop_left]

/-- A version above the reader's (R57). -/
theorem readBody_of_newer {p : FileParams} {v : Byte} (newer : p.version.toNat < v.toNat) (n : BitVec 32)
    (body : List Byte) : readBody p (v :: (countBytes n ++ body)) = .error .badVersion :=
  if_pos newer

/-- The reader's own version, with the words behind the count of them (R57). -/
theorem readBody_of_same (p : FileParams) {ws : List RawInstr} (small : ws.length < 2 ^ 32) :
    readBody p (p.version :: (countBytes (BitVec.ofNat 32 ws.length) ++ ws.flatMap wordBytes)) = .ok ws := by
  have count : ws.length = (BitVec.ofNat 32 ws.length).toNat := by rw [BitVec.toNat_ofNat, Nat.mod_eq_of_lt small]
  simp [readBody, countBytes, countBytes_append, bodyWords_flatMap, ← count]

/-- Settles O47: the reader's own tag and version, then the words. -/
theorem fileRoundTrip : Obligations.FileRoundTrip := by
  intro p ws small
  rw [writeFile_eq, readFile_append p rfl, if_pos rfl, readBody_of_same p small]

/-- Settles O48: the test of the tag, and behind it that of the version. -/
theorem fileReaderRejects : Obligations.FileReaderRejects := by
  intro p q ws length
  rw [writeFile_eq, readFile_append p length]
  refine ⟨fun other => if_neg other, fun same newer => ?_⟩
  rw [if_pos same, readBody_of_newer newer]

end Sys2Proof.Machine
end
